-- ==== Sys2Proof/Word.lean ====
section
/-! DEFINITION. The word types of the engine: a byte (R7), a command or response word (R40, R48), the key-length
register (R15). Nothing here is more than a name for a width. -/

namespace Sys2Proof

/-- A byte: "an unsigned integer 0..255 held in 8 bits" (R7); entries of `S` and `K`, registers `i` and `j`, operands. -/
abbrev Byte := BitVec 8

/-- A command word `CMD[15:0]` (R40) or a response word `RSP[15:0]` (R48), bit 15 the most significant. -/
abbrev Word := BitVec 16

/-- The key-length counter's 9 bits (R15). -/
abbrev KeyLength := BitVec 9

end Sys2Proof
end

