-- ==== Sys2Proof/Config.lean ====
section
/-! DEFINITION. The fixed parameters of R6, the open parameter the model uses, and the free values of dead state (U1).
An opaque constant has no body: nothing in Lean can prove what it is. -/

namespace Sys2Proof.Config

/-- `N_S`, `N_K`: entries of the permutation memory and of the key buffer (R6). -/
def entries : Nat := 256

/-- `KEY_MIN`, least key length in bytes (R6). -/
def keyMin : Nat := 1

/-- `KEY_MAX`, greatest key length in bytes (R6). -/
def keyMax : Nat := 256

/-- `N_ENGINES - 1`. R6 leaves `N_ENGINES` open, an integer at least 1; its value is free here (log 10). -/
opaque moreEngines : Nat

/-- `N_ENGINES`, the number of engine instances in a system (R6, R97). -/
def nEngines : Nat := moreEngines + 1

/-- What a dead entry `S[a]` reads as (U1, R26 "returns an unspecified byte"): free, the first argument the model's
counter of host events (log 2). -/
opaque deadS : Nat → Byte → Byte

/-- What a dead entry `K[a]` reads as (U1, R26): free (log 2). -/
opaque deadK : Nat → Byte → Byte

/-- What register `i` holds once it has become dead (U1, R70, R100): free (log 3). -/
opaque deadI : Nat → Byte

/-- What register `j` holds once it has become dead (U1, R70, R100): free (log 3). -/
opaque deadJ : Nat → Byte

end Sys2Proof.Config
end

