-- ==== Sys2Proof/Syntax.lean ====
section
/-! DEFINITION. The commands of the engine, one constructor for each row of spec/opcode_table.json (R43). -/

namespace Sys2Proof

/-- The four commands (R3, R43). The only operand is `imm8 = CMD[7:0]`, an unsigned byte "exactly as it stands" (R42). -/
inductive Instr where
  /-- `KEYB imm8`: offer one key byte (R56). -/
  | keyb (imm8 : Byte)
  /-- `KSA`: validate the key and build the permutation (R57). -/
  | ksa
  /-- `XORB imm8`: process one data byte (R64). -/
  | xorb (imm8 : Byte)
  /-- `END`: end the invocation (R70). -/
  | endInvocation
  deriving DecidableEq, Repr

end Sys2Proof
end

