-- ==== Sys2Proof/WellFormed.lean ====
section
/-! DEFINITION. What is well formed: a command (every one, since its operand is a byte by its type), the two fields of a
command word (R41, R45), and a sequence of commands (the grammar of R72). -/

namespace Sys2Proof

/-- A command is well formed when its operand fits the 8-bit field `imm8` (R41, R42); commands of format `Z` have no
operand. The operand's type is that field, so this holds of every term. -/
def Instr.wellFormed : Instr → Bool
  | .keyb imm8 => decide (imm8.toNat < 2 ^ 8)
  | .ksa => true
  | .xorb imm8 => decide (imm8.toNat < 2 ^ 8)
  | .endInvocation => true

/-- The two 8-bit fields of a command word before any meaning is given to them (R41). -/
structure CommandFields where
  /-- `CMD[15:8]`, the opcode. -/
  op : Byte
  /-- `CMD[7:0]`: `imm8` in format `B`, `zero` in format `Z`. -/
  lo : Byte
  deriving DecidableEq, Repr

/-- R45: the opcode is one of the four assigned ones, and in format `Z` (opcodes `0x02`, `0x04`) the field `zero` is
`0x00`. -/
def CommandFields.wellFormed (f : CommandFields) : Bool :=
  f.op == 0x01 || (f.op == 0x02 && f.lo == 0x00) || f.op == 0x03 || (f.op == 0x04 && f.lo == 0x00)

/-- Where a command sequence stands in the grammar of R72: between invocations or offering a key, with the number of key
bytes offered so far; or running, after a `KSA` with a valid key. -/
inductive SequenceState where
  | offering (keyBytes : Nat)
  | running
  deriving DecidableEq, Repr

/-- One command of the grammar of R72, `( KEYB* ( KSA_fail | KSA_ok XORB* END | END ) )*`: where the sequence stands after
it, or none where the grammar has no such command. `KSA_ok` is `KSA` with 1 to 256 key bytes offered. -/
def SequenceState.after : SequenceState → Instr → Option SequenceState
  | .offering n, .keyb _ => some (.offering (n + 1))
  | .offering n, .ksa => some (if Config.keyMin ≤ n ∧ n ≤ Config.keyMax then .running else .offering 0)
  | .offering _, .xorb _ => none
  | .offering _, .endInvocation => some (.offering 0)
  | .running, .keyb _ => none
  | .running, .ksa => none
  | .running, .xorb _ => some .running
  | .running, .endInvocation => some (.offering 0)

/-- A sequence of commands is well formed from a place in the grammar when it is a sequence of the grammar of R72 or a
prefix of one. -/
def sequenceWellFormed : SequenceState → List Instr → Bool
  | _, [] => true
  | q, c :: cs =>
    match q.after c with
    | some q' => sequenceWellFormed q' cs
    | none => false

end Sys2Proof
end

