-- ==== Sys2Proof/Decode.lean ====
section
/-! DEFINITION. Command words: the fields (R41), the opcode table (R43), the decoder (R44), the encoder, and the host's
numbering of a word's bits. -/

namespace Sys2Proof

/-- `CMD[15:8]`, the field `op` (R41); a slice as a number (R7). -/
def opField (w : Word) : Byte := BitVec.ofNat 8 (w.toNat / 256)

/-- `CMD[7:0]`, the field `imm8` or `zero` (R41, R42). -/
def loField (w : Word) : Byte := BitVec.ofNat 8 (w.toNat % 256)

/-- The word with bits 15..8 and 7..0 given: a command word from its fields (R41), a response word from `st` and `dat`
(R48). -/
def joinFields (hi lo : Byte) : Word := BitVec.ofNat 16 (hi.toNat * 256 + lo.toNat)

/-- What a word decodes to: a command, or `ILLEGAL` (R44). -/
inductive Decoded where
  | command (i : Instr)
  /-- The word spells no command (R45). -/
  | illegal
  deriving DecidableEq, Repr

/-- R44, the decoder: "a total function on the 65536 command words, performed before anything else and without reading
any state". -/
def decode (w : Word) : Decoded :=
  if opField w = 0x01 then .command (.keyb (loField w))
  else if opField w = 0x02 ∧ loField w = 0x00 then .command .ksa
  else if opField w = 0x03 then .command (.xorb (loField w))
  else if opField w = 0x04 ∧ loField w = 0x00 then .command .endInvocation
  else .illegal

/-- One row of the opcode map (R43): "a word `w` selects the row when `(w and mask) = match`". -/
structure OpcodeRow where
  mnemonic : String
  /-- The row's `match`. -/
  pattern : Word
  mask : Word
  deriving DecidableEq, Repr

/-- The row selects the word (R43). -/
def OpcodeRow.selects (r : OpcodeRow) (w : Word) : Bool := (w &&& r.mask) == r.pattern

/-- The row of the opcode map a command belongs to (table for R43). -/
def rowOf : Instr → OpcodeRow
  | .keyb _ => ⟨"KEYB", 0x0100, 0xFF00⟩
  | .ksa => ⟨"KSA", 0x0200, 0xFFFF⟩
  | .xorb _ => ⟨"XORB", 0x0300, 0xFF00⟩
  | .endInvocation => ⟨"END", 0x0400, 0xFFFF⟩

/-- The opcode map (table for R43), in its order. -/
def opcodeMap : List OpcodeRow := [rowOf (.keyb 0), rowOf .ksa, rowOf (.xorb 0), rowOf .endInvocation]

/-- The command word of a command (R41, R43; R56, R57, R64, R70 "Encoding"). -/
def encode : Instr → Word
  | .keyb imm8 => joinFields 0x01 imm8
  | .ksa => joinFields 0x02 0x00
  | .xorb imm8 => joinFields 0x03 imm8
  | .endInvocation => joinFields 0x04 0x00

/-- The command word whose bits, numbered as the opcode table numbers them, are those of `w` below `nbits`; every bit
above is 0. A command is one word of 16 bits (R40). -/
def tableWord (nbits w : Nat) : Word := BitVec.ofNat 16 (w % 2 ^ nbits)

/-- The command the decoder reads from an instruction whose bits are `w`; none where it refuses, or where bits above the
one word of a command are set (R40, R47: no longer form exists). -/
def decodeTableWord (nbits w : Nat) : Option Instr :=
  if w % 2 ^ nbits < 2 ^ 16 then
    match decode (tableWord nbits w) with
    | .command i => some i
    | .illegal => none
  else none

end Sys2Proof
end

