-- ==== Sys2Proof/Machine/State.lean ====
section
/-! DEFINITION. The state of one engine (R10), the two streams (R25), the outcomes a command can answer with (R48, R85),
the reasons a step could stop, and the state after reset (R24). -/

namespace Sys2Proof.Machine

/-- The phase register `PHASE` (R17). -/
inductive Phase where
  /-- `PH_KEY` = 0: between invocations, or collecting key bytes; `S`, `i`, `j` are dead. -/
  | phKey
  /-- `PH_RUN` = 1: a key schedule has completed; `S`, `i`, `j` hold a cipher context. -/
  | phRun
  deriving DecidableEq, Repr

/-- The three errors of the engine (R85). Each is an error response to the command that caused it, not a stop. -/
inductive EngineError where
  /-- Key length 0, or more than 256 key bytes offered; raised by `KSA` (R86). -/
  | invalidKey
  /-- A command not accepted in the current phase; raised by `KEYB`, `KSA`, `XORB` (R87). -/
  | sequenceError
  /-- A word that decodes to no command (R88). -/
  | illegalCommand
  deriving DecidableEq, Repr

/-- What a command answers with (R48, R49). No other response is ever produced (U6). -/
inductive Response where
  | ok
  | data (dat : Byte)
  | error (e : EngineError)
  deriving DecidableEq, Repr

/-- What the host can do to the engine (R9): issue a command word, or assert reset between two commands (R100). -/
inductive HostEvent where
  | command (w : Word)
  | reset
  deriving DecidableEq, Repr

/-- One internal memory of 256 one-byte entries (R25): the list of its LIVE-OR-WRITTEN entries, (address, byte), addresses
strictly rising. An unlisted entry is dead: no write has reached it since the space last became dead (R19, R26). -/
abbrev Memory := List Host.Cell

/-- The state of one engine: the seven elements of R10, the two streams of R25, and the model's own counter. -/
structure State where
  /-- The permutation memory (R11). -/
  S : Memory
  /-- First running index of the PRGA (R12). -/
  i : Byte
  /-- Second running index of the PRGA (R13). -/
  j : Byte
  /-- The key buffer (R14). -/
  K : Memory
  /-- The key-length counter, legal values 0..256 (R15). -/
  KLEN : KeyLength
  /-- The key-overflow flag (R16). -/
  KOVF : Bool
  /-- The phase register (R17). -/
  PHASE : Phase
  /-- The command stream (R25 (c)): what the host has issued and the engine has not yet taken, oldest first (log 4). -/
  commands : List HostEvent
  /-- The response stream (R25 (d)): the response words emitted, first emitted first (R34, R50; log 4). -/
  responses : List Word
  /-- The model's own: the number of host events taken, to which the free values of dead state are applied (log 3). -/
  freeIndex : Nat
  deriving DecidableEq, Repr

/-- The reasons a step stops with a fault: none. Every command word has a response and a next state (R9, R44, R110:
"the engine cannot hang"), the three errors of R85 among them (log 5), so this closed type has no constructor. -/
inductive Fault where
  deriving DecidableEq, Repr

/-- The reasons a step is refused. -/
inductive Refusal where
  /-- Raised only by an arm of exec whose command has no meaning yet; no arm is such. Safe. -/
  | notModelled (mnemonic : String)
  deriving DecidableEq, Repr

/-- The machine right after reset (R24, R101): `PHASE = PH_KEY`, `KLEN = 0`, `KOVF = 0`; `S` and `K` dead, nothing listed
(log 2). `i` and `j`, which R24 leaves unspecified, are 0: DESIGN CHOICE, log 1. Streams empty: log 4. -/
def State.reset : State where
  S := []
  i := 0
  j := 0
  K := []
  KLEN := 0
  KOVF := false
  PHASE := .phKey
  commands := []
  responses := []
  freeIndex := 0

end Sys2Proof.Machine
end

