-- ==== Sys2Proof/Machine/Ops.lean ====
section
/-! DEFINITION. The shared operations: a memory's read and write and its canonical form (R26), the accesses of the S and
K spaces, the swap (R35), what makes an element dead (R8, R19), responses (R48 to R50), raising an error (R91), and the
reset event (R100). -/

namespace Sys2Proof.Machine

/-- The byte most recently written to entry `a` since the space last became dead; none for a dead entry (R19, R26). -/
def Memory.read? : Memory → Nat → Option Byte
  | [], _ => none
  | (b, v) :: m, a => if a = b then some v else Memory.read? m a

/-- Makes `v` the most recent value of entry `a`, and changes no other entry (R26). The list stays in rising order. -/
def Memory.write : Memory → Nat → Byte → Memory
  | [], a, v => [(a, v)]
  | (b, u) :: m, a, v =>
    if a < b then (a, v) :: (b, u) :: m
    else if a = b then (a, v) :: m
    else (b, u) :: Memory.write m a v

/-- The canonical form, the model's own (log 2): addresses strictly rising, each in 0..255 (R25, R30). An unlisted entry
has no value, so no entry is equal to what an unlisted one reads as. -/
def Memory.wf (m : Memory) : Bool :=
  decide (m.Pairwise fun c d => c.1 < d.1) && m.all fun c => decide (c.1 < Config.entries)

/-- `SRead(a)`, written `S[a]` on the right of an assignment (R26). A dead entry reads as a free value (log 2). -/
def sRead (s : State) (a : Byte) : Byte := (s.S.read? a.toNat).getD (Config.deadS s.freeIndex a)

/-- `SWrite(a, v)`, written `S[a] <- v` (R26). -/
def sWrite (a v : Byte) (s : State) : State := { s with S := s.S.write a.toNat v }

/-- `KRead(a)` (R26). A dead entry reads as a free value (log 2). -/
def kRead (s : State) (a : Byte) : Byte := (s.K.read? a.toNat).getD (Config.deadK s.freeIndex a)

/-- `KWrite(a, v)` (R26). -/
def kWrite (a v : Byte) (s : State) : State := { s with K := s.K.write a.toNat v }

/-- `swap(S[a], S[b])` (R8, R35): `ta = S[a]; tb = S[b]; S[a] <- tb; S[b] <- ta`, in that order. -/
def sSwap (a b : Byte) (s : State) : State :=
  sWrite b (sRead s a) (sWrite a (sRead s b) s)

/-- `dead(S)` (R8): from here no entry of `S` has a value. -/
def deadenS (s : State) : State := { s with S := [] }

/-- `dead(K)` (R8, R62): from here no entry of `K` has a value. -/
def deadenK (s : State) : State := { s with K := [] }

/-- `dead(i) ; dead(j)` (R8): the registers hold free values (log 3). -/
def deadenIndices (s : State) : State :=
  { s with i := Config.deadI s.freeIndex, j := Config.deadJ s.freeIndex }

/-- `KLEN <- 0 ; KOVF <- 0` (R57, R70, R91, R100). -/
def clearKeyLength (s : State) : State := { s with KLEN := 0, KOVF := false }

/-- The `st` field of an error's response: its code (R85, table for R49). -/
def errorCode : EngineError → Byte
  | .invalidKey => 0x02
  | .sequenceError => 0x03
  | .illegalCommand => 0x04

/-- `RSP[15:8]`, the status code (R48, table for R49). -/
def responseStatus : Response → Byte
  | .ok => 0x00
  | .data _ => 0x01
  | .error e => errorCode e

/-- `RSP[7:0]`: the output byte of a `DATA` response, `0x00` for every other (R48). -/
def responseData : Response → Byte
  | .ok => 0x00
  | .data dat => dat
  | .error _ => 0x00

/-- The response word (R48). -/
def responseWord (r : Response) : Word := joinFields (responseStatus r) (responseData r)

/-- Emits one response word, after every earlier one (R34, R50). -/
def respond (r : Response) (s : State) : State := { s with responses := s.responses ++ [responseWord r] }

/-- `respond OK`, `respond DATA(v)` (R8): the last act of a command that completes. -/
def complete (r : Response) (s : State) : Host.Outcome State Fault Refusal := .next (respond r s)

/-- The state writes of an error (R91): `InvalidKey` clears the key, the two others write no state. -/
def errorWrites : EngineError → State → State
  | .invalidKey, s => deadenK (clearKeyLength s)
  | .sequenceError, s => s
  | .illegalCommand, s => s

/-- `raise E` (R8, R91): the state writes of the error, its response, and nothing else. Nothing is saved, no mode changes,
control goes nowhere, and there is no return from it (R93): the engine awaits the next command word. -/
def raise (e : EngineError) (s : State) : Host.Outcome State Fault Refusal :=
  complete (.error e) (errorWrites e s)

/-- The reset event (R100): `PHASE <- PH_KEY ; KLEN <- 0 ; KOVF <- 0`, all else dead, no response. -/
def resetEvent (s : State) : State :=
  deadenK (deadenIndices (deadenS (clearKeyLength { s with PHASE := .phKey })))

/-- The next event the host has issued, in order (R34), with the state after taking it; none when the host has issued
nothing. Taking an event advances the counter of free values (log 3). -/
def takeEvent (s : State) : Option (HostEvent × State) :=
  match s.commands with
  | [] => none
  | e :: rest => some (e, { s with commands := rest, freeIndex := s.freeIndex + 1 })

/-- Places a command word as the next one the engine takes. -/
def placeCommand (w : Word) (s : State) : State := { s with commands := .command w :: s.commands }

/-- The host issues events, after all it has issued before (R34, R109). -/
def issue (events : List HostEvent) (s : State) : State := { s with commands := s.commands ++ events }

end Sys2Proof.Machine
end

