-- ==== Sys2Proof/Machine/Flags.lean ====
section
/-! DEFINITION. The conditions and the one flag of the engine (R74): the phase check (R72), the buffer-full check and
`KOVF` (R16, R56), the key-length counter (R15), the key-length check (R57, R86). Arithmetic writes no flag (R112). -/

namespace Sys2Proof.Machine

/-- `PHASE` as the bit it is (R17). -/
def phaseBit : Phase → BitVec 1
  | .phKey => 0
  | .phRun => 1

/-- The table for R72: which command is accepted in which phase. -/
def accepts : Phase → Instr → Bool
  | .phKey, .keyb _ => true
  | .phKey, .ksa => true
  | .phKey, .xorb _ => false
  | .phKey, .endInvocation => true
  | .phRun, .keyb _ => false
  | .phRun, .ksa => false
  | .phRun, .xorb _ => true
  | .phRun, .endInvocation => true

/-- The phase check, the first line of `KEYB`, `KSA` and `XORB` (R87, R90): in another phase the command raises
`SequenceError` and does nothing else. -/
def inPhase (p : Phase) (body : State → Host.Outcome State Fault Refusal) (s : State) :
    Host.Outcome State Fault Refusal :=
  if s.PHASE = p then body s else raise .sequenceError s

/-- `KLEN < 256`, the only check on any access (R33, R56). -/
def keyHasRoom (klen : KeyLength) : Bool := decide (klen.toNat < 256)

/-- `KLEN + 1` on 9 bits, performed only when `KLEN < 256` (R112 (g)). -/
def nextKeyLength (klen : KeyLength) : KeyLength := BitVec.ofNat 9 (klen.toNat + 1)

/-- `KOVF <- 1` (R16, R56). -/
def setOverflow (s : State) : State := { s with KOVF := true }

/-- `KLEN = 0 or KOVF = 1`: the key offered is empty or too long (R57, R86). -/
def keyInvalid (klen : KeyLength) (kovf : Bool) : Bool := decide (klen.toNat = 0) || kovf

end Sys2Proof.Machine
end

