-- ==== Sys2Proof/Machine/Operands.lean ====
section
/-! DEFINITION. Operands and addresses: the one operand form (R42), the three address forms (R27), and the index
arithmetic of R112, each sum formed as a natural number and reduced by the `mod` the rule writes beside it (R8). -/

namespace Sys2Proof.Machine

/-- A natural number modulo 256, as a byte (R112). -/
def byteMod (n : Nat) : Byte := BitVec.ofNat 8 (n % 256)

/-- The operand of `KEYB` and `XORB`: `imm8`, "exactly as it stands" (R42). -/
def operand (imm8 : Byte) : Byte := imm8

/-- Address form "direct by loop index": entry `ii` (R27, R30). -/
def loopAddress (ii : Nat) : Byte := byteMod ii

/-- Address form "loop index modulo key length": entry `ii mod L` of `K` (R27, R61, R112 (e)). -/
def keyAddress (ii len : Nat) : Byte := byteMod (ii % len)

/-- The entry of `K` a `KEYB` writes: `KLEN`, under the guard `KLEN < 256` (R27, R30). -/
def storeAddress (klen : KeyLength) : Byte := byteMod klen.toNat

/-- Address form "memory-indirect sum": `t = (S[i] + S[j]) mod 256` (R27, R112 (d)). -/
def sumAddress (si sj : Byte) : Byte := byteMod (si.toNat + sj.toNat)

/-- `(jj + S[ii] + K[ii mod L]) mod 256` of a KSA round (R58, R112 (a)). -/
def nextKsaIndex (jj sii key : Byte) : Byte := byteMod (jj.toNat + sii.toNat + key.toNat)

/-- `(i + 1) mod 256` (R63, R112 (b)). -/
def nextI (i : Byte) : Byte := byteMod (i.toNat + 1)

/-- `(j + S[i]) mod 256` (R63, R112 (c)). -/
def nextJ (j si : Byte) : Byte := byteMod (j.toNat + si.toNat)

/-- `imm8 xor ks`, bitwise on 8 bits (R7, R112 (f)). -/
def xorByte (a b : Byte) : Byte := a ^^^ b

end Sys2Proof.Machine
end

