-- ==== Sys2Proof/Machine/Control.lean ====
section
/-! DEFINITION. Ending an invocation: the command `END` (R70). -/

namespace Sys2Proof.Machine

/-- The state writes of `END` (R70): `PHASE <- PH_KEY ; KLEN <- 0 ; KOVF <- 0 ; dead(S) ; dead(i) ; dead(j) ; dead(K)`. -/
def endWrites (s : State) : State :=
  deadenK (deadenIndices (deadenS (clearKeyLength { s with PHASE := .phKey })))

/-- `END` (R70): accepted in both phases, never an error. -/
def execEnd (s : State) : Host.Outcome State Fault Refusal := complete .ok (endWrites s)

end Sys2Proof.Machine
end

