-- ==== Sys2Proof/Machine/KeySchedule.lean ====
section
/-! DEFINITION. The key-schedule engine: the commands `KEYB` (R56) and `KSA` (R57). -/

namespace Sys2Proof.Machine

/-- `K[KLEN] <- b ; KLEN <- KLEN + 1` (R56). -/
def appendKeyByte (b : Byte) (s : State) : State :=
  { kWrite (storeAddress s.KLEN) b s with KLEN := nextKeyLength s.KLEN }

/-- `KEYB imm8` (R56). The 257th and later key bytes are not stored; they set `KOVF` and are still answered `OK`. -/
def execKeyb (imm8 : Byte) (s : State) : Host.Outcome State Fault Refusal :=
  inPhase .phKey (fun s =>
    if keyHasRoom s.KLEN then complete .ok (appendKeyByte (operand imm8) s)
    else complete .ok (setOverflow s)) s

/-- `for a = 0 to 255 do S[a] <- a`, in rising order (R27, R57). -/
def ksaIdentity (s : State) : State :=
  (List.range 256).foldl (fun t a => sWrite (loopAddress a) (loopAddress a) t) s

/-- One round of the key schedule on the engine's own `S` and `K` (R57, R105): `jj` first, from `S[ii]` before this
round's swap; then the swap, with the new `jj`. -/
def ksaRound (len : Nat) (c : State × Byte) (ii : Nat) : State × Byte :=
  let jj := nextKsaIndex c.2 (sRead c.1 (loopAddress ii)) (kRead c.1 (keyAddress ii len))
  (sSwap (loopAddress ii) jj c.1, jj)

/-- `jj = 0 ; for ii = 0 to 255 do …`: 256 rounds in rising order (R55, R57). The final `jj` is discarded. -/
def ksaRounds (len : Nat) (s : State) : State × Byte := (List.range 256).foldl (ksaRound len) (s, 0)

/-- `i <- 0 ; j <- 0 ; KLEN <- 0 ; KOVF <- 0 ; dead(K) ; PHASE <- PH_RUN` (R57). -/
def enterRun (s : State) : State :=
  deadenK (clearKeyLength { s with i := 0, j := 0, PHASE := .phRun })

/-- `KSA` (R57): the phase check, then the key-length check (R90, R107), then the schedule. -/
def execKsa (s : State) : Host.Outcome State Fault Refusal :=
  inPhase .phKey (fun s =>
    if keyInvalid s.KLEN s.KOVF then raise .invalidKey s
    else complete .ok (enterRun (ksaRounds s.KLEN.toNat (ksaIdentity s)).1)) s

end Sys2Proof.Machine
end

