-- ==== Sys2Proof/Machine/Prga.lean ====
section
/-! DEFINITION. The pseudorandom generation engine: the command `XORB` (R64). -/

namespace Sys2Proof.Machine

/-- `i <- (i + 1) mod 256` (R64). -/
def advanceI (s : State) : State := { s with i := nextI s.i }

/-- `j <- (j + S[i]) mod 256`, with the new `i` and `S` before the swap (R64, R104). -/
def advanceJ (s : State) : State := { s with j := nextJ s.j (sRead s s.i) }

/-- The state writes of one round: `i`, `j`, then the swap of `S[i]` and `S[j]` (R64, R65). They read no operand (R66). -/
def xorbWrites (s : State) : State :=
  let t := advanceJ (advanceI s)
  sSwap t.i t.j t

/-- `t = (S[i] + S[j]) mod 256 ; ks = S[t]`, all read after the swap (R64, R65). -/
def keystreamByte (s : State) : Byte := sRead s (sumAddress (sRead s s.i) (sRead s s.j))

/-- `XORB imm8` (R64). -/
def execXorb (imm8 : Byte) (s : State) : Host.Outcome State Fault Refusal :=
  inPhase .phRun (fun s =>
    complete (.data (xorByte (operand imm8) (keystreamByte (xorbWrites s)))) (xorbWrites s)) s

end Sys2Proof.Machine
end

