-- ==== Sys2Proof/Machine/Dispatch.lean ====
section
/-! DEFINITION. One arm for each command, each a direct call of its meaning. -/

namespace Sys2Proof.Machine

def exec (i : Instr) (s : State) : Host.Outcome State Fault Refusal :=
  match i with
  | .keyb imm8 => Sys2Proof.Machine.execKeyb imm8 s
  | .ksa => Sys2Proof.Machine.execKsa s
  | .xorb imm8 => Sys2Proof.Machine.execXorb imm8 s
  | .endInvocation => Sys2Proof.Machine.execEnd s

end Sys2Proof.Machine
end

