-- ==== Sys2Proof/Machine/Step.lean ====
section
/-! DEFINITION. One step of the engine: it takes the next event the host has issued and performs it whole (R9). -/

namespace Sys2Proof.Machine

/-- The response to one command word (R9, R44, R90): decoding comes first and reads no state; a word that spells no
command raises `IllegalCommand` (R88). -/
def performWord (w : Word) (s : State) : Host.Outcome State Fault Refusal :=
  match decode w with
  | .command c => exec c s
  | .illegal => raise .illegalCommand s

/-- One step. "With no command and no reset the state does not change" (R9); a reset emits no response (R100); a command
word is performed whole, in the order issued (R34). -/
def step (s : State) : Host.Outcome State Fault Refusal :=
  match takeEvent s with
  | none => .next s
  | some (.reset, t) => .next (resetEvent t)
  | some (.command w, t) => performWord w t

/-- The state with one command word presented as the very next one (R18, R38: the engine fetches nothing, the host hands
it every command word). -/
def State.withFetchWord (s : State) (nbits w : Nat) : State := placeCommand (tableWord nbits w) s

end Sys2Proof.Machine
end

