-- ==== Sys2Proof/Machine/Assembler.lean ====
section
/-! DEFINITION. The assembler and the listing (R51 to R54). A source text is a list of characters. Letters are compared as
the spec prints them; the code of a character is its ASCII code (R52; G1). What R51 leaves open is log 12. -/

namespace Sys2Proof.Asm

open Sys2Proof.Machine

/-- One source line that is not blank: a command, a raw word (R54), or a pseudo-instruction (R52). -/
inductive Line where
  | command (c : Instr)
  | rawWord (w : Word)
  | key (bytes : List Byte)
  | data (bytes : List Byte)
  | kstr (n : Nat)
  | apply (keyBytes dataBytes : List Byte)
  deriving DecidableEq, Repr

/-- The commands a line stands for (table for R52); none for a raw word. -/
def Line.commands : Line → List Instr
  | .command c => [c]
  | .rawWord _ => []
  | .key bytes => bytes.map .keyb
  | .data bytes => bytes.map .xorb
  | .kstr n => List.replicate n (.xorb 0x00)
  | .apply k d => k.map .keyb ++ [.ksa] ++ d.map .xorb ++ [.endInvocation]

/-- The words a line assembles to, in order (R51, R52, R54). -/
def Line.words : Line → List Word
  | .rawWord w => [w]
  | l => l.commands.map encode

/-- The pieces of a source line. -/
inductive Token where
  | name (cs : List Char)
  | quoted (c : Char)
  | text (cs : List Char)
  | comma
  deriving DecidableEq, Repr

/-- Where the reader of a line stands: outside quotes, with the letters of the current name (in reverse); after an opening
single quote; after the character; or inside a double-quoted string (in reverse). -/
inductive ReadState where
  | plain (acc : List Char)
  | openQuote
  | closeQuote (c : Char)
  | string (acc : List Char)
  deriving DecidableEq, Repr

/-- Puts the name read so far, if any, before the tokens that follow. -/
def endName (acc : List Char) (rest : List Token) : List Token :=
  if acc = [] then rest else .name acc.reverse :: rest

/-- A printable ASCII character, what R51 allows in single quotes. -/
def printable (c : Char) : Bool := decide (32 ≤ c.toNat ∧ c.toNat ≤ 126)

/-- An ASCII character, printable or not, what R52 allows in a double-quoted string. -/
def ascii (c : Char) : Bool := decide (c.toNat < 128)

/-- The tokens of one line; none where it is no line of the language. 34 is the double quote, 39 the single quote, 59 the
`;` that starts a comment outside quotes (R51), 44 the comma, 32 and 9 space and tab. -/
def tokens : ReadState → List Char → Option (List Token)
  | .plain acc, [] => some (endName acc [])
  | .plain acc, c :: cs =>
    if c.toNat = 59 then some (endName acc [])
    else if c.toNat = 32 ∨ c.toNat = 9 then (tokens (.plain []) cs).map (endName acc)
    else if c.toNat = 44 then (tokens (.plain []) cs).map fun ts => endName acc (.comma :: ts)
    else if c.toNat = 39 then if acc = [] then tokens .openQuote cs else none
    else if c.toNat = 34 then if acc = [] then tokens (.string []) cs else none
    else tokens (.plain (c :: acc)) cs
  | .openQuote, c :: cs => if printable c then tokens (.closeQuote c) cs else none
  | .closeQuote c, d :: cs => if d.toNat = 39 then (tokens (.plain []) cs).map (.quoted c :: ·) else none
  | .string acc, c :: cs =>
    if c.toNat = 34 then (tokens (.plain []) cs).map (.text acc.reverse :: ·)
    else if ascii c then tokens (.string (c :: acc)) cs
    else none
  | .openQuote, [] => none
  | .closeQuote _, [] => none
  | .string _, [] => none

/-- The value of a digit, hexadecimal ones in either case. -/
def digitValue (c : Char) : Option Nat :=
  let n := c.toNat
  if 48 ≤ n ∧ n ≤ 57 then some (n - 48)
  else if 65 ≤ n ∧ n ≤ 70 then some (n - 55)
  else if 97 ≤ n ∧ n ≤ 102 then some (n - 87)
  else none

/-- The number that digits spell in a base, onto `acc`; none where one of them is no digit of that base. -/
def digitsValue (base : Nat) (acc : Nat) : List Char → Option Nat
  | [] => some acc
  | c :: cs =>
    match digitValue c with
    | some d => if d < base then digitsValue base (acc * base + d) cs else none
    | none => none

/-- A number: hexadecimal after `0x`, else decimal (R7, R51). That the operand of `.word`, for which R54 prints only the
form `0xNNNN`, and the count of `KSTR` are read by this too, in either base, is a DESIGN CHOICE (log 12). -/
def number : List Char → Option Nat
  | '0' :: 'x' :: c :: cs => digitsValue 16 0 (c :: cs)
  | c :: cs => digitsValue 10 0 (c :: cs)
  | [] => none

/-- A number below a bound, as bits. -/
def boundedNumber (width : Nat) (cs : List Char) : Option (BitVec width) :=
  match number cs with
  | some n => if n < 2 ^ width then some (BitVec.ofNat width n) else none
  | none => none

/-- One byte operand: `0..255`, `0x00..0xFF`, or one printable character in single quotes (R51). -/
def byteOperand : Token → Option Byte
  | .name cs => boundedNumber 8 cs
  | .quoted c => some (BitVec.ofNat 8 c.toNat)
  | .text _ => none
  | .comma => none

/-- Byte operands separated by commas, at least one (R52). The lines of 95_test_vectors.md, sections 2.7 and 3, that write bare
hexadecimal bytes between spaces (`DATA BB F3 16`) are not read: DESIGN CHOICE, log 12. -/
def byteList : List Token → Option (List Byte)
  | [t] => (byteOperand t).map ([·])
  | t :: .comma :: ts =>
    match byteOperand t, byteList ts with
    | some b, some bs => some (b :: bs)
    | _, _ => none
  | _ => none

/-- `<bytes>`: a double-quoted string, possibly empty, each character its ASCII code, or a list of byte operands (R52). -/
def bytesOperand : List Token → Option (List Byte)
  | [.text cs] => some (cs.map fun c => BitVec.ofNat 8 c.toNat)
  | ts => byteList ts

/-- The tokens before the first name `DATA` and those after it (R52, `APPLY`). -/
def splitAtData : List Token → Option (List Token × List Token)
  | [] => none
  | t :: ts =>
    if t = .name ['D', 'A', 'T', 'A'] then some ([], ts)
    else (splitAtData ts).map fun p => (t :: p.1, p.2)

/-- The line that a mnemonic and the tokens after it spell (R51, R52, R54); mnemonics are in capitals. `.word` takes any
number below 2^16, decimal ones too, where R54 gives only `.word 0xNNNN`: DESIGN CHOICE, log 12. -/
def lineOf (mnemonic : List Char) (rest : List Token) : Option Line :=
  if mnemonic = ['K', 'E', 'Y', 'B'] then
    match rest with
    | [t] => (byteOperand t).map fun b => .command (.keyb b)
    | _ => none
  else if mnemonic = ['K', 'S', 'A'] then if rest = [] then some (.command .ksa) else none
  else if mnemonic = ['X', 'O', 'R', 'B'] then
    match rest with
    | [t] => (byteOperand t).map fun b => .command (.xorb b)
    | _ => none
  else if mnemonic = ['E', 'N', 'D'] then if rest = [] then some (.command .endInvocation) else none
  else if mnemonic = ['.', 'w', 'o', 'r', 'd'] then
    match rest with
    | [.name cs] => (boundedNumber 16 cs).map .rawWord
    | _ => none
  else if mnemonic = ['K', 'E', 'Y'] then (bytesOperand rest).map .key
  else if mnemonic = ['D', 'A', 'T', 'A'] then (bytesOperand rest).map .data
  else if mnemonic = ['K', 'S', 'T', 'R'] then
    match rest with
    | [.name cs] => (number cs).map .kstr
    | _ => none
  else if mnemonic = ['A', 'P', 'P', 'L', 'Y'] then
    match rest with
    | .name ['K', 'E', 'Y'] :: ts =>
      match splitAtData ts with
      | some (ks, ds) =>
        match bytesOperand ks, bytesOperand ds with
        | some key, some data => some (.apply key data)
        | _, _ => none
      | none => none
    | _ => none
  else none

/-- The words one source line assembles to: none for a blank or comment line ("Blank lines are ignored", R51); no result
where the line is not of the language. -/
def assembleLine (cs : List Char) : Option (List Word) :=
  match tokens (.plain []) cs with
  | some [] => some []
  | some (.name m :: rest) => (lineOf m rest).map Line.words
  | some _ => none
  | none => none

/-- The words of a source text, one command a line, in order (R51). -/
def assemble (lines : List (List Char)) : Option (List Word) :=
  match lines with
  | [] => some []
  | l :: ls =>
    match assembleLine l, assemble ls with
    | some ws, some more => some (ws ++ more)
    | _, _ => none

/-- The lines of a text: the pieces between line feeds (10). -/
def textLines : List Char → List (List Char)
  | [] => [[]]
  | c :: cs =>
    if c.toNat = 10 then [] :: textLines cs
    else
      match textLines cs with
      | l :: ls => (c :: l) :: ls
      | [] => [[c]]

/-- The words of a source text given as characters (R51). -/
def assembleText (text : List Char) : Option (List Word) := assemble (textLines text)

/-- A hexadecimal digit, in capitals (R54). -/
def hexDigit (n : Nat) : Char := if n < 10 then Char.ofNat (48 + n) else Char.ofNat (55 + n)

/-- `0x` and the two hexadecimal digits of a byte (R54). -/
def hexByte (b : Byte) : List Char := ['0', 'x', hexDigit (b.toNat / 16), hexDigit (b.toNat % 16)]

/-- `0x` and the four hexadecimal digits of a word (R54). -/
def hexWord (w : Word) : List Char :=
  ['0', 'x', hexDigit (w.toNat / 4096), hexDigit (w.toNat / 256 % 16), hexDigit (w.toNat / 16 % 16), hexDigit (w.toNat % 16)]

/-- The canonical listing of a word (R54). -/
def listing (w : Word) : List Char :=
  match decode w with
  | .command (.keyb b) => ['K', 'E', 'Y', 'B', ' '] ++ hexByte b
  | .command .ksa => ['K', 'S', 'A']
  | .command (.xorb b) => ['X', 'O', 'R', 'B', ' '] ++ hexByte b
  | .command .endInvocation => ['E', 'N', 'D']
  | .illegal => ['.', 'w', 'o', 'r', 'd', ' '] ++ hexWord w

/-- How a response is written in listings (R53). -/
def responseText : Response → List Char
  | .ok => ['O', 'K']
  | .data b => ['D', 'A', 'T', 'A', ' '] ++ hexByte b
  | .error .invalidKey => ['E', '_', 'I', 'N', 'V', 'A', 'L', 'I', 'D', '_', 'K', 'E', 'Y']
  | .error .sequenceError => ['E', '_', 'S', 'E', 'Q', 'U', 'E', 'N', 'C', 'E']
  | .error .illegalCommand => ['E', '_', 'I', 'L', 'L', 'E', 'G', 'A', 'L']

/-- A byte string, first byte first, as the `dat` fields of a sequence of `DATA` responses may be written (R7, R53). -/
def byteStringText : List Byte → List Char
  | [] => []
  | [b] => (hexByte b).drop 2
  | b :: bs => (hexByte b).drop 2 ++ ' ' :: byteStringText bs

end Sys2Proof.Asm
end

