-- ==== Sys2Proof/Machine/Pure.lean ====
section
/-! DEFINITION. The whole-buffer operation as pure functions, written from R58, R59, R63 and R76 and independent of the
engine's commands. A permutation memory is a function from an entry's number to its byte. -/

namespace Sys2Proof.Rc4

open Sys2Proof.Machine

/-- A sequence of 256 bytes, one for each entry number 0..255 (R58). -/
abbrev SBox := Byte → Byte

/-- The identity sequence, `S_0[a] = a` (R59). -/
def identity : SBox := fun a => a

/-- `S` with entries `a` and `b` exchanged (R35, R58). -/
def exchange (S : SBox) (a b : Byte) : SBox :=
  fun x => if x = a then S b else if x = b then S a else S x

/-- `key[ii mod L]` (R58, R61). R58 and R59 define it for keys of 1 to 256 bytes; that a longer key's own bytes are read,
and 0 for the empty key, is a DESIGN CHOICE (log 13). -/
def keyByte (key : List Byte) (ii : Nat) : Byte := key.getD (ii % key.length) 0

/-- `ksa_round` (R58): round `ii` from `(S, jj)`. R58 defines it for `ii` in 0..255; that a greater round number names the
entry `ii mod 256` is a DESIGN CHOICE (log 13). -/
def ksaRound (key : List Byte) (ii : Nat) (c : SBox × Byte) : SBox × Byte :=
  let jj := byteMod (c.2.toNat + (c.1 (byteMod ii)).toNat + (keyByte key ii).toNat)
  (exchange c.1 (byteMod ii) jj, jj)

/-- `(S_r, jj_r)`: the key schedule after rounds `0 .. r-1` (R59), with `r` in 0..256 there (log 13). -/
def ksaAfter (key : List Byte) : Nat → SBox × Byte
  | 0 => (identity, 0)
  | r + 1 => ksaRound key r (ksaAfter key r)

/-- `ksa(key) = S_256` (R59), not defined there for a key of no byte or more than 256 (log 13). -/
def ksa (key : List Byte) : SBox := (ksaAfter key 256).1

/-- The cipher context, "{permutation state, index i, index j}" (00_scope.md glossary; R83). -/
structure Context where
  S : SBox
  i : Byte
  j : Byte

/-- `prga_round` (R63): the new context and the keystream byte. -/
def prgaRound (c : Context) : Context × Byte :=
  let i' := byteMod (c.i.toNat + 1)
  let j' := byteMod (c.j.toNat + (c.S i').toNat)
  let S' := exchange c.S i' j'
  let t := byteMod ((S' i').toNat + (S' j').toNat)
  (⟨S', i', j'⟩, S' t)

/-- The context a key gives: `S = ksa(key) ; i = 0 ; j = 0` (R76). -/
def start (key : List Byte) : Context := ⟨ksa key, 0, 0⟩

/-- The loop of `apply` (R76) from a context: one round for each data byte, in order. -/
def process : Context → List Byte → List Byte
  | _, [] => []
  | c, d :: ds => (d ^^^ (prgaRound c).2) :: process (prgaRound c).1 ds

/-- The context after one round for each of `n` data bytes (R63, R69). -/
def advance : Nat → Context → Context
  | 0, c => c
  | n + 1, c => advance n (prgaRound c).1

/-- The `n` values `ks` of the loop of `apply` run `n` times from a context (R76). -/
def keystreamFrom : Nat → Context → List Byte
  | 0, _ => []
  | n + 1, c => (prgaRound c).2 :: keystreamFrom n (prgaRound c).1

/-- `keystream(key, n)` (R76). -/
def keystream (key : List Byte) (n : Nat) : List Byte := keystreamFrom n (start key)

/-- `apply(data, key)` (R76): the output, or the error `InvalidKey`. -/
def apply (data key : List Byte) : Except EngineError (List Byte) :=
  if key.length = 0 ∨ key.length > 256 then .error .invalidKey
  else .ok (process (start key) data)

end Sys2Proof.Rc4
end

