-- ==== Sys2Proof/Machine/Driver.lean ====
section
/-! DEFINITION. The host's side: sending events and reading the responses, and the sequence that realises `apply` on an
engine (R77). -/

namespace Sys2Proof.Machine

/-- The host issues events and the engine takes each of them: as many steps as events (R34). -/
def runEvents (events : List HostEvent) (s : State) : Host.Outcome State Fault Refusal :=
  Host.Core.run Sys2Proof.core events.length (issue events s)

/-- The state after the host's events; the state unchanged should the run stop (it never does, R110). -/
def afterEvents (events : List HostEvent) (s : State) : State :=
  match runEvents events s with
  | .next t => t
  | .fault _ => s
  | .refused _ => s

/-- The response words a run of host events emits (R50): those beyond the words emitted before. -/
def responsesTo (events : List HostEvent) (s : State) : List Word :=
  (afterEvents events s).responses.drop s.responses.length

/-- The commands as host events, one word each (R9, R43). -/
def commandEvents (cs : List Instr) : List HostEvent := cs.map fun c => .command (encode c)

/-- The output buffer the host collects: the `dat` fields of the `DATA` responses, in order (R77). -/
def dataBytes (words : List Word) : List Byte :=
  (words.filter fun w => opField w == responseStatus (.data 0)).map loField

/-- The commands that offer the key, one `KEYB` for each byte, first byte first, and the `KSA` (R77, R103). -/
def keyCommands (key : List Byte) : List Instr := key.map .keyb ++ [.ksa]

/-- The commands that process the data and end the invocation (R77). -/
def dataCommands (data : List Byte) : List Instr := data.map .xorb ++ [.endInvocation]

/-- R77, the host's whole part: the key and `KSA`; then, only if the `KSA` response was `OK`, the data and `END`. The host
reports the output buffer, or the `InvalidKey` it was answered, with no `END` then (log 14). R77 and R99 give no report for
a `KSA` response that is neither `OK` nor `E_INVALID_KEY`, which an engine not in the starting state can give; that the
host reports `InvalidKey` there too is a DESIGN CHOICE (log 16). -/
def hostApply (data key : List Byte) (s : State) : State × Except EngineError (List Byte) :=
  let t := afterEvents (commandEvents (keyCommands key)) s
  if t.responses.getLast? = some (responseWord .ok) then
    (afterEvents (commandEvents (dataCommands data)) t,
      .ok (dataBytes (responsesTo (commandEvents (dataCommands data)) t)))
  else (t, .error .invalidKey)

end Sys2Proof.Machine
end

