-- ==== Sys2Proof/Machine/System.lean ====
section
/-! DEFINITION. Several engines (R97): each with its own complete state and its own streams, sharing nothing. -/

namespace Sys2Proof.Machine

/-- The engines of a system (R6 `N_ENGINES`, R97); an instance is known by its place in the list only. -/
abbrev System := List State

/-- A system of `N_ENGINES` instances, each just reset ("start the same way", R97). -/
def System.start : System := List.replicate Config.nEngines State.reset

/-- One step of instance `n`; no other instance is touched (R97). -/
def System.stepAt (n : Nat) (sys : System) : System :=
  match sys[n]? with
  | none => sys
  | some s =>
    match step s with
    | .next t => sys.set n t
    | .fault _ => sys
    | .refused _ => sys

end Sys2Proof.Machine
end

