-- ==== Sys2Proof/Safety.lean ====
section
/-! DEFINITION. What claims are stated in: the invariants of R20 and R21, liveness of state (R19), the starting state of
R77, the key an engine holds. -/

namespace Sys2Proof.Machine

/-- R20: every entry of `S` has a value, and `a -> S[a]` is a bijection on 0..255. -/
def sIsPermutation (s : State) : Prop :=
  (∀ a : Byte, (s.S.read? a.toNat).isSome = true) ∧ Function.Bijective (sRead s)

/-- Every entry `K[a]` with `a < KLEN` has a value: `KEYB` has written it in this invocation (R14, R61). -/
def keyIsStored (s : State) : Prop := ∀ a, a < s.KLEN.toNat → (s.K.read? a).isSome = true

/-- The control invariants (R21 (a), (b), (c)). -/
def controlInvariant (s : State) : Prop :=
  s.KLEN.toNat ≤ 256 ∧ (s.KOVF = true → s.KLEN.toNat = 256) ∧
    (s.PHASE = .phRun → s.KLEN.toNat = 0 ∧ s.KOVF = false)

/-- The invariant of the machine: R20 and R21, what R14 says of the key buffer, and the memories in canonical form, which is
the model's own (log 2). -/
def Inv (s : State) : Prop :=
  controlInvariant s ∧ (s.PHASE = .phRun → sIsPermutation s) ∧ keyIsStored s ∧
    s.S.wf = true ∧ s.K.wf = true

/-- Everything live has a value a write put there (R19): the key bytes held, and all of `S` in `PH_RUN`. -/
def liveIsStored (s : State) : Prop :=
  keyIsStored s ∧ (s.PHASE = .phRun → ∀ a : Byte, (s.S.read? a.toNat).isSome = true)

/-- Two states agree on everything live (R19): `PHASE`, `KLEN`, `KOVF`; `K[a]` for `a < KLEN`; `S`, `i`, `j` in `PH_RUN`. -/
def liveAgree (s t : State) : Prop :=
  s.PHASE = t.PHASE ∧ s.KLEN = t.KLEN ∧ s.KOVF = t.KOVF ∧
    (∀ a, a < s.KLEN.toNat → s.K.read? a = t.K.read? a) ∧
    (s.PHASE = .phRun → (∀ a : Byte, s.S.read? a.toNat = t.S.read? a.toNat) ∧ s.i = t.i ∧ s.j = t.j)

/-- The relation of R101: what a reset leaves, "whatever the other elements are". -/
def resetRelation (s : State) : Prop := s.PHASE = .phKey ∧ s.KLEN = 0 ∧ s.KOVF = false

/-- The starting state of R77, with no command pending: "an engine in `PH_KEY` with `KLEN = 0` and `KOVF = 0`". -/
def startState (s : State) : Prop := resetRelation s ∧ s.commands = []

/-- The key the engine holds: `K[0..KLEN-1]` (R14, R59). -/
def heldKey (s : State) : List Byte := (List.range s.KLEN.toNat).map fun a => kRead s (byteMod a)

/-- The cipher context the engine holds (00_scope.md glossary; R83). -/
def contextOf (s : State) : Rc4.Context := ⟨sRead s, s.i, s.j⟩

/-- Where the engine stands in the grammar of R72: the number of key bytes it has been offered, which is past 256 when
`KOVF` is set; or running. -/
def sequenceStateOf (s : State) : SequenceState :=
  match s.PHASE with
  | .phRun => .running
  | .phKey => .offering (if s.KOVF then 257 else s.KLEN.toNat)

end Sys2Proof.Machine
end

