-- ==== Sys2Proof/Certificates/Slice0/Obligations.lean ====
section
/-! DEFINITION. The statements for the provers. Each docstring names the rules of spec/ it formalises. -/

open Sys2Proof Sys2Proof.Machine

/-! ### Encoding and assembler -/

/-- R44: decoding, by the opcode byte and the operand byte as numbers, on all 65536 words; the two counts
(95_test_vectors.md section 2.5); and that a step decodes before anything else, whatever the state. In the last clause the
form of a step is the model's choice: taking the event off the pending list is log 4, the counter `freeIndex` log 3. -/
def Obligations.DecodeIsTheTotalFunctionOfTheSpec : Prop :=
  (∀ w : Word,
    (w.toNat / 256 = 0x01 → decode w = .command (.keyb (byteMod w.toNat))) ∧
    (w.toNat = 0x0200 → decode w = .command .ksa) ∧
    (w.toNat / 256 = 0x03 → decode w = .command (.xorb (byteMod w.toNat))) ∧
    (w.toNat = 0x0400 → decode w = .command .endInvocation) ∧
    (w.toNat / 256 ≠ 0x01 ∧ w.toNat ≠ 0x0200 ∧ w.toNat / 256 ≠ 0x03 ∧ w.toNat ≠ 0x0400 → decode w = .illegal)) ∧
  {w : Word | decode w ≠ .illegal}.ncard = 514 ∧ {w : Word | decode w = .illegal}.ncard = 65022 ∧
  (∀ (s : State) (w : Word) (rest : List HostEvent), s.commands = .command w :: rest →
    (∀ c, decode w = .command c → step s = exec c { s with commands := rest, freeIndex := s.freeIndex + 1 }) ∧
    (decode w = .illegal →
      step s = raise .illegalCommand { s with commands := rest, freeIndex := s.freeIndex + 1 }))

/-- R43: the four rows of the opcode map, and a word selects a row exactly when it decodes to a command of that row. -/
def Obligations.OpcodeRowsSelectTheirCommands : Prop :=
  opcodeMap = [⟨"KEYB", 0x0100, 0xFF00⟩, ⟨"KSA", 0x0200, 0xFFFF⟩, ⟨"XORB", 0x0300, 0xFF00⟩, ⟨"END", 0x0400, 0xFFFF⟩] ∧
  (∀ r ∈ opcodeMap, ∀ w : Word, (w &&& r.mask) = r.pattern ↔ ∃ c, decode w = .command c ∧ rowOf c = r) ∧
  (∀ c : Instr, rowOf c ∈ opcodeMap) ∧
  encode (.keyb 0x4B) = 0x014B ∧ encode .ksa = 0x0200 ∧ encode (.xorb 0x50) = 0x0350 ∧ encode .endInvocation = 0x0400

/-- R43, R44: the word of every well-formed command decodes to that command, with its operand, and no other word does. -/
def Obligations.DecodeAndEncodeAgree : Prop :=
  ∀ c : Instr, c.wellFormed = true → decode (encode c) = .command c ∧ ∀ w, decode w = .command c → w = encode c

/-- R41, R45: a word decodes to a command exactly when its fields are well formed. -/
def Obligations.WellFormedFieldsDecode : Prop :=
  ∀ f : CommandFields, f.wellFormed = true ↔ decode (BitVec.ofNat 16 (f.op.toNat * 256 + f.lo.toNat)) ≠ .illegal

/-- 95_test_vectors.md section 2.5: the words written out there decode as listed. -/
def Obligations.DecodedWordsOfTheSpec : Prop :=
  decode 0x0100 = .command (.keyb 0x00) ∧ decode 0x014B = .command (.keyb 0x4B) ∧
  decode 0x01FF = .command (.keyb 0xFF) ∧ decode 0x0200 = .command .ksa ∧
  decode 0x0300 = .command (.xorb 0x00) ∧ decode 0x0350 = .command (.xorb 0x50) ∧
  decode 0x03FF = .command (.xorb 0xFF) ∧ decode 0x0400 = .command .endInvocation ∧
  (∀ w ∈ ([0x0000, 0x00FF, 0x0201, 0x02FF, 0x0401, 0x04FF, 0x0500, 0x8100, 0xFFFF] : List Word), decode w = .illegal)

/-- R52: what each pseudo-instruction expands to; `KEY` and `DATA` of any double-quoted ASCII string on one line, printable
or not, as read from their text; and the example of the rule. The clause about strings rests on the model's choices of
log 12: the codes are ASCII (PRESUMED), a `;` inside quotes is no comment and there is no escape (DESIGN CHOICE, unsafe). -/
def Obligations.PseudoInstructionsExpand : Prop :=
  (∀ bytes : List Byte, (Asm.Line.key bytes).words = bytes.map fun b => BitVec.ofNat 16 (0x0100 + b.toNat)) ∧
  (∀ bytes : List Byte, (Asm.Line.data bytes).words = bytes.map fun b => BitVec.ofNat 16 (0x0300 + b.toNat)) ∧
  (∀ n : Nat, (Asm.Line.kstr n).words = List.replicate n 0x0300) ∧
  (∀ k d : List Byte, (Asm.Line.apply k d).words =
    (Asm.Line.key k).words ++ [0x0200] ++ (Asm.Line.data d).words ++ [0x0400]) ∧
  (∀ k d : List Byte, (Asm.Line.apply k d).commands = keyCommands k ++ dataCommands d) ∧
  (∀ text : List Char, (∀ c ∈ text, c.toNat < 128 ∧ c.toNat ≠ 34 ∧ c.toNat ≠ 10) →
    Asm.assembleLine (['K', 'E', 'Y', ' ', Char.ofNat 34] ++ text ++ [Char.ofNat 34])
      = some (text.map fun c => BitVec.ofNat 16 (0x0100 + c.toNat)) ∧
    Asm.assembleLine (['D', 'A', 'T', 'A', ' ', Char.ofNat 34] ++ text ++ [Char.ofNat 34])
      = some (text.map fun c => BitVec.ofNat 16 (0x0300 + c.toNat))) ∧
  Asm.assembleLine ['K', 'E', 'Y', ' ', Char.ofNat 34, 'K', 'e', 'y', Char.ofNat 34] = some [0x014B, 0x0165, 0x0179]

/-- R54: the forms of the canonical listing and its examples; `.word` emits the word as given; assembling the listing of a
word gives the word back, and listing the assembly of a canonical line gives the line back. -/
def Obligations.ListingAndAssemblerAgree : Prop :=
  (∀ b : Byte, Asm.listing (encode (.keyb b)) = ['K', 'E', 'Y', 'B', ' '] ++ Asm.hexByte b) ∧
  (∀ b : Byte, Asm.listing (encode (.xorb b)) = ['X', 'O', 'R', 'B', ' '] ++ Asm.hexByte b) ∧
  Asm.listing 0x0200 = ['K', 'S', 'A'] ∧ Asm.listing 0x0400 = ['E', 'N', 'D'] ∧
  (∀ w : Word, decode w = .illegal → Asm.listing w = ['.', 'w', 'o', 'r', 'd', ' '] ++ Asm.hexWord w) ∧
  Asm.listing 0x014B = ['K', 'E', 'Y', 'B', ' ', '0', 'x', '4', 'B'] ∧
  Asm.listing 0x0350 = ['X', 'O', 'R', 'B', ' ', '0', 'x', '5', '0'] ∧
  Asm.listing 0x0201 = ['.', 'w', 'o', 'r', 'd', ' ', '0', 'x', '0', '2', '0', '1'] ∧
  (∀ w : Word, Asm.assembleLine (['.', 'w', 'o', 'r', 'd', ' '] ++ Asm.hexWord w) = some [w]) ∧
  (∀ w : Word, Asm.assembleLine (Asm.listing w) = some [w]) ∧
  (∀ (line : List Char) (v w : Word), line = Asm.listing v → Asm.assembleLine line = some [w] → Asm.listing w = line)

/-! ### The step -/

/-- R9, R44: a command word that decodes is performed as that command, after the oldest pending event is taken off; and
`withFetchWord` presents a table word as that event. Taking an event advances the model's counter `freeIndex` (log 3). -/
def Obligations.StepRunsTheDecodedCommand : Prop :=
  (∀ (s : State) (w : Word) (rest : List HostEvent) (c : Instr),
    s.commands = .command w :: rest → decode w = .command c → c.wellFormed = true →
    step s = exec c { s with commands := rest, freeIndex := s.freeIndex + 1 }) ∧
  (∀ (s : State) (nbits n : Nat) (c : Instr), decodeTableWord nbits n = some c →
    step (s.withFetchWord nbits n) = exec c { s with freeIndex := s.freeIndex + 1 })

/-- R88, R45: a word that decodes to no command is answered `E_ILLEGAL` in either phase and no state is written (the
counter `freeIndex` is the model's own, log 3). -/
def Obligations.IllegalWordsWriteNoState : Prop :=
  ∀ (s : State) (w : Word) (rest : List HostEvent), s.commands = .command w :: rest → decode w = .illegal →
    step s = .next { s with commands := rest, freeIndex := s.freeIndex + 1, responses := s.responses ++ [0x0400] }

/-- R9: "with no command and no reset the state does not change". -/
def Obligations.IdleStepChangesNothing : Prop :=
  ∀ s : State, s.commands = [] → step s = .next s

/-- R9, R110: every step, and every command in every state, answers a next state; the engine cannot hang. -/
def Obligations.EveryStepAnswersANextState : Prop :=
  (∀ s : State, ∃ t, step s = .next t) ∧ ∀ (c : Instr) (s : State), ∃ t, exec c s = .next t

/-- R50: one response word for each command word, emitted after all earlier ones; none for a reset and none unasked. The
pending list is the model's (log 4), and that the events queued behind a reset stay pending is the model's choice, log 15
(DESIGN CHOICE, unsafe), no rule of the spec. -/
def Obligations.OneResponseForEachCommand : Prop :=
  ∀ s t : State, step s = .next t →
    (s.commands = [] → t.responses = s.responses) ∧
    (∀ rest, s.commands = .reset :: rest → t.responses = s.responses ∧ t.commands = rest) ∧
    (∀ w rest, s.commands = .command w :: rest →
      ∃ r, t.responses = s.responses ++ [responseWord r] ∧ t.commands = rest)

/-- R48, R49: the response words in full, and that a step emits no others: a status is at most `0x04`, the data field is
zero under every status but `DATA`, and only an accepted `XORB` is answered `DATA`. -/
def Obligations.OnlyTheseResponseWords : Prop :=
  responseWord .ok = 0x0000 ∧ (∀ b : Byte, (responseWord (.data b)).toNat = 0x0100 + b.toNat) ∧
  responseWord (.error .invalidKey) = 0x0200 ∧ responseWord (.error .sequenceError) = 0x0300 ∧
  responseWord (.error .illegalCommand) = 0x0400 ∧
  (∀ s t : State, step s = .next t → ∀ w ∈ t.responses.drop s.responses.length,
    w.toNat / 256 ≤ 4 ∧ (w.toNat / 256 ≠ 1 → w.toNat % 256 = 0) ∧
    (w.toNat / 256 = 1 → s.PHASE = .phRun ∧ ∃ b rest, s.commands = .command (encode (.xorb b)) :: rest))

/-! ### Reset -/

/-- R24: the three elements the spec gives a reset value. -/
def Obligations.ResetValuesOfTheSpec : Prop :=
  State.reset.PHASE = .phKey ∧ phaseBit State.reset.PHASE = 0 ∧ State.reset.KLEN = 0 ∧ State.reset.KOVF = false

/-- R100, R101, R102: an assertion of reset leaves a state of the reset relation, emits no response, and leaves the
responses already emitted; it leaves the control state that `END` leaves. That the later pending events stay pending is the
model's choice, log 15 (DESIGN CHOICE, unsafe), no rule of the spec. -/
def Obligations.ResetEventMeetsTheRelation : Prop :=
  ∀ (s : State) (rest : List HostEvent), s.commands = .reset :: rest →
    ∃ t u, step s = .next t ∧ exec .endInvocation s = .next u ∧
      t.PHASE = .phKey ∧ t.KLEN = 0 ∧ t.KOVF = false ∧ t.responses = s.responses ∧ t.commands = rest ∧
      t.PHASE = u.PHASE ∧ t.KLEN = u.KLEN ∧ t.KOVF = u.KOVF

/-- R101: every command sequence gives the same responses from every state the reset relation allows, whatever `S`, `K`,
`i` and `j` hold. -/
def Obligations.ResetStatesAnswerAlike : Prop :=
  ∀ s t : State, startState s → startState t → ∀ events, responsesTo events s = responsesTo events t

/-! ### Memories and arithmetic -/

/-- R26: a read gives the byte most recently written, a write changes no other entry and nothing else. -/
def Obligations.ReadsGiveTheLastWrite : Prop :=
  ∀ (s : State) (a v x : Byte),
    sRead (sWrite a v s) x = (if x = a then v else sRead s x) ∧
    kRead (kWrite a v s) x = (if x = a then v else kRead s x) ∧
    kRead (sWrite a v s) x = kRead s x ∧ sRead (kWrite a v s) x = sRead s x ∧
    sWrite a v s = { s with S := (sWrite a v s).S } ∧ kWrite a v s = { s with K := (kWrite a v s).K }

/-- R35: the swap exchanges two entries, leaves every other, leaves all when the two are one, and keeps a permutation. -/
def Obligations.SwapExchangesTwoEntries : Prop :=
  ∀ (s : State) (a b : Byte),
    sRead (sSwap a b s) a = sRead s b ∧ sRead (sSwap a b s) b = sRead s a ∧
    (∀ x, x ≠ a → x ≠ b → sRead (sSwap a b s) x = sRead s x) ∧
    (∀ x, sRead (sSwap a a s) x = sRead s x) ∧
    (sIsPermutation s → sIsPermutation (sSwap a b s))

/-- R112: the sums of the engine are sums of natural numbers modulo 256, the order of the addends does not matter, the
key-length increment does not wrap, and the laws of `xor`. -/
def Obligations.ArithmeticIsModulo256 : Prop :=
  (∀ a b c : Byte, (nextKsaIndex a b c).toNat = (a.toNat + b.toNat + c.toNat) % 256 ∧
    nextKsaIndex a b c = nextKsaIndex b a c ∧ nextKsaIndex a b c = nextKsaIndex a c b) ∧
  (∀ i : Byte, (nextI i).toNat = (i.toNat + 1) % 256) ∧ nextI 255 = 0 ∧
  (∀ j v : Byte, (nextJ j v).toNat = (j.toNat + v.toNat) % 256) ∧
  (∀ u v : Byte, (sumAddress u v).toNat = (u.toNat + v.toNat) % 256 ∧ sumAddress u v = sumAddress v u) ∧
  (∀ ii len : Nat, 1 ≤ len → len ≤ 256 → (keyAddress ii len).toNat = ii % len ∧ (ii < len → (keyAddress ii len).toNat = ii)) ∧
  (∀ n : KeyLength, n.toNat < 256 → (nextKeyLength n).toNat = n.toNat + 1) ∧
  (∀ x y : Byte, xorByte x 0 = x ∧ xorByte x x = 0 ∧ xorByte (xorByte x y) y = x)

/-! ### KEYB and KSA -/

/-- R56: `KEYB` in full. In `PH_RUN` it is refused and writes nothing; with room it stores the byte in `K[KLEN]` and adds
1 to `KLEN`; with `KLEN = 256` it sets `KOVF` and stores nothing. Nothing else changes. That `i`, `j`, `S` and the entries
of `K` from `KLEN` on, dead in `PH_KEY`, are unchanged is the model's reading, log 8 (DEDUCED, unsafe), against U1. -/
def Obligations.KeybFollowsItsRule : Prop :=
  ∀ (b : Byte) (s : State),
    (s.PHASE = .phRun → exec (.keyb b) s = .next { s with responses := s.responses ++ [0x0300] }) ∧
    (s.PHASE = .phKey → s.KLEN.toNat < 256 → ∃ t, exec (.keyb b) s = .next t ∧
      t.KLEN.toNat = s.KLEN.toNat + 1 ∧
      (∀ a : Byte, kRead t a = if a.toNat = s.KLEN.toNat then b else kRead s a) ∧
      (∀ a : Byte, sRead t a = sRead s a) ∧
      t.i = s.i ∧ t.j = s.j ∧ t.KOVF = s.KOVF ∧ t.PHASE = s.PHASE ∧ t.commands = s.commands ∧
      t.responses = s.responses ++ [0x0000]) ∧
    (s.PHASE = .phKey → 256 ≤ s.KLEN.toNat →
      exec (.keyb b) s = .next { s with KOVF := true, responses := s.responses ++ [0x0000] })

/-- R57, R59: `KSA` in full. In `PH_RUN` it is refused and writes nothing; for a key of no byte or too many it is
answered `E_INVALID_KEY`, clears `KLEN` and `KOVF`, and writes nothing else that is live; for a key of 1 to 256 bytes it
leaves `S = ksa(K[0..KLEN-1])`, `i`, `j`, `KLEN`, `KOVF` zero and `PHASE = PH_RUN`. That `S`, `i` and `j`, dead in
`PH_KEY`, are unchanged by an `E_INVALID_KEY` is the model's reading, log 8 (DEDUCED, unsafe), against U1. -/
def Obligations.KsaFollowsItsRule : Prop :=
  ∀ s : State,
    (s.PHASE = .phRun → exec .ksa s = .next { s with responses := s.responses ++ [0x0300] }) ∧
    (s.PHASE = .phKey → (s.KLEN.toNat = 0 ∨ s.KOVF = true) → ∃ t, exec .ksa s = .next t ∧
      t.KLEN = 0 ∧ t.KOVF = false ∧ t.PHASE = .phKey ∧ (∀ a : Byte, sRead t a = sRead s a) ∧ t.S = s.S ∧
      t.i = s.i ∧ t.j = s.j ∧ t.commands = s.commands ∧ t.responses = s.responses ++ [0x0200]) ∧
    (s.PHASE = .phKey → 1 ≤ s.KLEN.toNat → s.KLEN.toNat ≤ 256 → s.KOVF = false → ∃ t, exec .ksa s = .next t ∧
      (∀ a : Byte, sRead t a = Rc4.ksa ((List.range s.KLEN.toNat).map fun n => kRead s (byteMod n)) a) ∧
      t.i = 0 ∧ t.j = 0 ∧ t.KLEN = 0 ∧ t.KOVF = false ∧ t.PHASE = .phRun ∧ t.commands = s.commands ∧
      t.responses = s.responses ++ [0x0000])

/-- R86: `InvalidKey` is raised by `KSA` alone, in `PH_KEY`, exactly when no key byte was offered or more than 256 were,
before any write to `S`; under the control invariant the two causes cannot hold together. That `S`, `i` and `j`, dead in
`PH_KEY`, are unchanged by it is the model's reading, log 8 (DEDUCED, unsafe), against U1. -/
def Obligations.InvalidKeyIsRaisedExactlyThen : Prop :=
  (∀ (c : Instr) (s t : State), exec c s = .next t →
    (t.responses = s.responses ++ [0x0200] ↔
      c = .ksa ∧ s.PHASE = .phKey ∧ (s.KLEN.toNat = 0 ∨ s.KOVF = true)) ∧
    (t.responses = s.responses ++ [0x0200] → t.S = s.S ∧ t.i = s.i ∧ t.j = s.j)) ∧
  (∀ s : State, controlInvariant s → ¬(s.KLEN.toNat = 0 ∧ s.KOVF = true))

/-- R16: no event but a `KEYB` offered while `KLEN = 256` sets `KOVF` (stated under the control invariant of R21). -/
def Obligations.OnlyAFullKeybSetsOverflow : Prop :=
  ∀ s t : State, controlInvariant s → step s = .next t → s.KOVF = false →
    (t.KOVF = true ↔ s.PHASE = .phKey ∧ s.KLEN.toNat = 256 ∧
      ∃ b rest, s.commands = .command (encode (.keyb b)) :: rest)

/-- R14: a stored key byte is never changed: an entry below `KLEN` before and after any event holds the same byte. -/
def Obligations.StoredKeyBytesAreNeverChanged : Prop :=
  ∀ s t : State, step s = .next t → ∀ a, a < s.KLEN.toNat → a < t.KLEN.toNat → t.K.read? a = s.K.read? a

/-- R58: one round of the key schedule as a pure function, and the four worked rounds of the rule for the key "Key". -/
def Obligations.KsaRoundFollowsItsRule : Prop :=
  (∀ (key : List Byte) (S : Rc4.SBox) (jj : Byte) (ii : Nat), 1 ≤ key.length → key.length ≤ 256 → ii < 256 →
    jj.toNat + (S (byteMod ii)).toNat + (key.getD (ii % key.length) 0).toNat ≤ 765 ∧
    (Rc4.ksaRound key ii (S, jj)).2.toNat
      = (jj.toNat + (S (byteMod ii)).toNat + (key.getD (ii % key.length) 0).toNat) % 256 ∧
    (Rc4.ksaRound key ii (S, jj)).1 (byteMod ii) = S (Rc4.ksaRound key ii (S, jj)).2 ∧
    (Rc4.ksaRound key ii (S, jj)).1 (Rc4.ksaRound key ii (S, jj)).2 = S (byteMod ii) ∧
    ∀ a, a ≠ byteMod ii → a ≠ (Rc4.ksaRound key ii (S, jj)).2 → (Rc4.ksaRound key ii (S, jj)).1 a = S a) ∧
  (Rc4.ksaAfter [0x4B, 0x65, 0x79] 1).2 = 75 ∧ (Rc4.ksaAfter [0x4B, 0x65, 0x79] 1).1 0 = 0x4B ∧
  (Rc4.ksaAfter [0x4B, 0x65, 0x79] 1).1 75 = 0x00 ∧
  (Rc4.ksaAfter [0x4B, 0x65, 0x79] 2).2 = 177 ∧ (Rc4.ksaAfter [0x4B, 0x65, 0x79] 2).1 1 = 0xB1 ∧
  (Rc4.ksaAfter [0x4B, 0x65, 0x79] 2).1 177 = 0x01 ∧
  (Rc4.ksaAfter [0x4B, 0x65, 0x79] 3).2 = 44 ∧ (Rc4.ksaAfter [0x4B, 0x65, 0x79] 3).1 2 = 0x2C ∧
  (Rc4.ksaAfter [0x4B, 0x65, 0x79] 3).1 44 = 0x02 ∧
  (Rc4.ksaAfter [0x4B, 0x65, 0x79] 4).2 = 122 ∧ (Rc4.ksaAfter [0x4B, 0x65, 0x79] 4).1 3 = 0x7A ∧
  (Rc4.ksaAfter [0x4B, 0x65, 0x79] 4).1 122 = 0x03

/-- R20, R60 (b): after every round of the key schedule, and after every round of the generator from one, the memory is a
permutation of 0..255. Keys of no byte or more than 256, and rounds past 256, lie outside R58 and R59; there the statement
speaks of the model's own functions (log 13). -/
def Obligations.EveryRoundKeepsAPermutation : Prop :=
  (∀ (key : List Byte) (r : Nat), Function.Bijective (Rc4.ksaAfter key r).1) ∧
  (∀ c : Rc4.Context, Function.Bijective c.S → Function.Bijective (Rc4.prgaRound c).1.S)

/-- R60 (c): a key and the same key written twice give the same permutation. -/
def Obligations.AKeyWrittenTwiceGivesTheSameSchedule : Prop :=
  ∀ key : List Byte, 1 ≤ key.length → 2 * key.length ≤ 256 → Rc4.ksa (key ++ key) = Rc4.ksa key

/-- R61: the key index `ii mod L` lies in 0..L-1, is `ii` for `L = 256` and 0 for `L = 1`, and key byte `a` is used
`ceil((256 - a) / L)` times over the pass. -/
def Obligations.KeyBytesAreUsedInTurn : Prop :=
  ∀ len : Nat, 1 ≤ len → len ≤ 256 →
    (∀ ii, ii < 256 → (keyAddress ii len).toNat < len) ∧
    (len = 256 → ∀ ii, ii < 256 → (keyAddress ii len).toNat = ii) ∧
    (len = 1 → ∀ ii, ii < 256 → (keyAddress ii len).toNat = 0) ∧
    ∀ a, a < len →
      ((List.range 256).filter fun ii => (keyAddress ii len).toNat == a).length = (256 - a + (len - 1)) / len

/-! ### XORB -/

/-- R64: `XORB` in full. In `PH_KEY` it is refused and writes nothing; in `PH_RUN` the context becomes that of one
`prga_round`, the response is `DATA(imm8 xor ks)`, and only the two swapped entries of `S`, `i` and `j` are written. -/
def Obligations.XorbFollowsItsRule : Prop :=
  ∀ (b : Byte) (s : State),
    (s.PHASE = .phKey → exec (.xorb b) s = .next { s with responses := s.responses ++ [0x0300] }) ∧
    (s.PHASE = .phRun → ∃ t, exec (.xorb b) s = .next t ∧
      t.i.toNat = (s.i.toNat + 1) % 256 ∧ t.j.toNat = (s.j.toNat + (sRead s t.i).toNat) % 256 ∧
      sRead t t.i = sRead s t.j ∧ sRead t t.j = sRead s t.i ∧
      (∀ a, a ≠ t.i → a ≠ t.j → sRead t a = sRead s a) ∧
      (Rc4.prgaRound ⟨sRead s, s.i, s.j⟩).1 = ⟨sRead t, t.i, t.j⟩ ∧
      t.responses = s.responses ++
        [responseWord (.data (b ^^^ sRead t (byteMod ((sRead t t.i).toNat + (sRead t t.j).toNat))))] ∧
      (∀ a, kRead t a = kRead s a) ∧ t.K = s.K ∧ t.KLEN = s.KLEN ∧ t.KOVF = s.KOVF ∧ t.PHASE = s.PHASE ∧
      t.commands = s.commands)

/-- R63, R65, R68: on a permutation, the lookup in the memory before the swap gives another byte exactly when `t` is the
new `i` or the new `j` and those two differ; `t` itself is the same sum before and after the swap. -/
def Obligations.LookupMustFollowTheSwap : Prop :=
  ∀ (S : Rc4.SBox) (i j : Byte), Function.Bijective S →
    let S' := Rc4.exchange S i j
    let t := byteMod ((S' i).toNat + (S' j).toNat)
    t = byteMod ((S i).toNat + (S j).toNat) ∧ (S' t ≠ S t ↔ (t = i ∨ t = j) ∧ i ≠ j)

/-- R66: the writes of `XORB` do not depend on the data byte, only the response does; `XORB 0x00` answers the keystream
byte; `(b xor ks) xor ks = b`; and the output of the whole operation is the data xor a keystream the data does not enter. -/
def Obligations.KeystreamDoesNotReadTheData : Prop :=
  (∀ s : State, s.PHASE = .phRun → ∃ (ks : Byte) (u : State), ∀ b : Byte,
    exec (.xorb b) s = .next { u with responses := s.responses ++ [responseWord (.data (b ^^^ ks))] }) ∧
  (∀ s t : State, s.PHASE = .phRun → exec (.xorb 0x00) s = .next t →
    t.responses = s.responses ++ [responseWord (.data (Rc4.prgaRound ⟨sRead s, s.i, s.j⟩).2)]) ∧
  (∀ b ks : Byte, (b ^^^ ks) ^^^ ks = b) ∧
  (∀ (c : Rc4.Context) (data : List Byte),
    Rc4.process c data = List.zipWith (· ^^^ ·) data (Rc4.keystreamFrom data.length c))

/-- R67: after a `KSA` and `n` accepted `XORB`, `i = n mod 256`, with no other effect at the wrap. -/
def Obligations.IndexCountsTheDataBytes : Prop :=
  ∀ (s : State) (data : List Byte), s.PHASE = .phRun → s.commands = [] → s.i = 0 →
    (afterEvents (commandEvents (data.map .xorb)) s).i.toNat = data.length % 256 ∧
    (afterEvents (commandEvents (data.map .xorb)) s).PHASE = .phRun

/-! ### END, phases and errors -/

/-- R70: `END` in full: both phases, never an error, the three control elements at their reset values. Of `S`, `i`, `j`
and `K`, dead from here, nothing is said. -/
def Obligations.EndFollowsItsRule : Prop :=
  ∀ s : State, ∃ t, exec .endInvocation s = .next t ∧ t.PHASE = .phKey ∧ t.KLEN = 0 ∧ t.KOVF = false ∧
    t.responses = s.responses ++ [0x0000] ∧ t.commands = s.commands

/-- R19, R62: after `END`, after reset, and after a `KSA` accepted in `PH_KEY` (the key bytes), what is dead has no value
the spec gives. That a dead memory lists nothing is the model's form of it (log 2). -/
def Obligations.DeadMemoriesHoldNoValue : Prop :=
  (∀ s t : State, exec .endInvocation s = .next t → ∀ a, t.S.read? a = none ∧ t.K.read? a = none) ∧
  (∀ s t : State, exec .ksa s = .next t → s.PHASE = .phKey → t.KLEN = 0 ∧ ∀ a, t.K.read? a = none) ∧
  (∀ s t : State, ∀ rest, s.commands = .reset :: rest → step s = .next t →
    ∀ a, t.S.read? a = none ∧ t.K.read? a = none)

/-- R71: the phase after every event is the one the table gives; anything not listed leaves it. -/
def Obligations.PhaseMovesOnlyAsTheTable : Prop :=
  ∀ s t : State, step s = .next t →
    (s.commands = [] → t.PHASE = s.PHASE) ∧
    (∀ rest, s.commands = .reset :: rest → t.PHASE = .phKey) ∧
    (∀ w rest, s.commands = .command w :: rest →
      (decode w = .command .endInvocation → t.PHASE = .phKey) ∧
      (decode w = .command .ksa →
        (s.PHASE = .phKey ∧ 1 ≤ s.KLEN.toNat ∧ s.KOVF = false → t.PHASE = .phRun) ∧
        (¬(s.PHASE = .phKey ∧ 1 ≤ s.KLEN.toNat ∧ s.KOVF = false) → t.PHASE = s.PHASE)) ∧
      (decode w ≠ .command .endInvocation → decode w ≠ .command .ksa → t.PHASE = s.PHASE))

/-- R87: `SequenceError` is raised by `KEYB` and `KSA` in `PH_RUN` and by `XORB` in `PH_KEY`; it writes no state at all;
`END` never raises it. -/
def Obligations.SequenceErrorWritesNoState : Prop :=
  (∀ (s : State) (b : Byte), s.PHASE = .phRun →
    exec (.keyb b) s = .next { s with responses := s.responses ++ [0x0300] } ∧
    exec .ksa s = .next { s with responses := s.responses ++ [0x0300] }) ∧
  (∀ (s : State) (b : Byte), s.PHASE = .phKey →
    exec (.xorb b) s = .next { s with responses := s.responses ++ [0x0300] }) ∧
  (∀ s t : State, exec .endInvocation s = .next t → t.responses ≠ s.responses ++ [0x0300])

/-- R90: the order of checking, illegal word, then phase, then key length; exactly one response in each case; the two
examples of the rule. -/
def Obligations.ErrorsAreCheckedInOrder : Prop :=
  decode 0x0201 = .illegal ∧ decode 0x0200 = .command .ksa ∧
  ∀ (s : State) (w : Word) (rest : List HostEvent), s.commands = .command w :: rest → ∃ t, step s = .next t ∧
    (decode w = .illegal → t.responses = s.responses ++ [0x0400]) ∧
    (∀ b, decode w = .command (.keyb b) ∨ decode w = .command .ksa → s.PHASE = .phRun →
      t.responses = s.responses ++ [0x0300]) ∧
    (∀ b, decode w = .command (.xorb b) → s.PHASE = .phKey → t.responses = s.responses ++ [0x0300]) ∧
    (decode w = .command .ksa → s.PHASE = .phKey → (s.KLEN.toNat = 0 ∨ s.KOVF = true) →
      t.responses = s.responses ++ [0x0200])

/-- R91: what raising each error does. That `S`, `i` and `j`, which R91 says "are and stay dead" under `InvalidKey`, are
unchanged is the model's reading, log 8 (DEDUCED, unsafe), against U1. -/
def Obligations.RaisingAnErrorWritesOnlyThis : Prop :=
  ∀ s : State,
    (∃ t, raise .invalidKey s = .next t ∧ t.KLEN = 0 ∧ t.KOVF = false ∧ t.PHASE = s.PHASE ∧ t.S = s.S ∧ t.i = s.i ∧
      t.j = s.j ∧ t.commands = s.commands ∧ t.responses = s.responses ++ [0x0200]) ∧
    raise .sequenceError s = .next { s with responses := s.responses ++ [0x0300] } ∧
    raise .illegalCommand s = .next { s with responses := s.responses ++ [0x0400] }

/-- R72: which command is refused in which phase, that a refused command writes nothing, and that the sequences of commands
with no refused one are exactly those of the grammar (and their prefixes). The engine may stand anywhere its control
invariant allows (R21). That what is dead in `PH_KEY` is unchanged by a refused `XORB` is the model's reading of "writes
nothing", log 8 (DEDUCED, unsafe), against U1. -/
def Obligations.UnrefusedSequencesAreTheGrammar : Prop :=
  (∀ (s t : State) (c : Instr), exec c s = .next t →
    (t.responses = s.responses ++ [0x0300] ↔
      (s.PHASE = .phRun ∧ ((∃ b, c = .keyb b) ∨ c = .ksa)) ∨ (s.PHASE = .phKey ∧ ∃ b, c = .xorb b)) ∧
    (t.responses = s.responses ++ [0x0300] → t = { s with responses := s.responses ++ [0x0300] })) ∧
  (∀ (s : State) (cs : List Instr), controlInvariant s → s.commands = [] →
    (sequenceWellFormed (sequenceStateOf s) cs = true ↔ (0x0300 : Word) ∉ responsesTo (commandEvents cs) s))

/-! ### Invariants and isolation -/

/-- R20, R21 at reset; the memories of the reset state list nothing (log 2). -/
def Obligations.InvariantHoldsAtReset : Prop := Inv State.reset

/-- R14, R20, R21: every step keeps the invariant: the control invariants, `S` a permutation in `PH_RUN`, every key byte
counted by `KLEN` stored, and both memories in canonical form. The canonical form, and that an entry has a value just when
it is listed, are the model's choice, log 2 (DESIGN CHOICE), no rule of the spec. -/
def Obligations.EveryStepKeepsTheInvariant : Prop :=
  ∀ s t : State, Inv s → step s = .next t → Inv t

/-- R19, R73, R80: two engines that agree on what is live, and have stored what is live, answer every sequence of host
events alike: dead state, earlier invocations and free values never reach a response. -/
def Obligations.DeadStateNeverReachesAResponse : Prop :=
  ∀ s t : State, liveIsStored s → liveIsStored t → liveAgree s t → s.commands = [] → t.commands = [] →
    ∀ events, responsesTo events s = responsesTo events t

/-- R84: after an `END` the engine is indistinguishable, by any sequence of host events, from an engine just reset. -/
def Obligations.EndLeavesNoTrace : Prop :=
  ∀ s : State, s.commands = [] → ∀ events,
    responsesTo events (afterEvents [.command 0x0400] s) = responsesTo events State.reset

/-- R97: a step of one instance leaves every other instance, and steps of two instances may be taken in either order. -/
def Obligations.EnginesShareNothing : Prop :=
  (∀ (sys : System) (n m : Nat), n ≠ m → (sys.stepAt n)[m]? = sys[m]? ∧
    (sys.stepAt m).stepAt n = (sys.stepAt n).stepAt m) ∧
  (∀ (sys : System) (n : Nat) (s : State), sys[n]? = some s →
    ∃ t, step s = .next t ∧ (sys.stepAt n)[n]? = some t) ∧
  (∀ (n : Nat) (s : State), System.start[n]? = some s → s = State.reset)

/-! ### The whole-buffer operation -/

/-- R79: `apply(apply(data, key), key) = data` for every data and every valid key. -/
def Obligations.ApplyTwiceGivesTheDataBack : Prop :=
  ∀ data key : List Byte, 1 ≤ key.length → key.length ≤ 256 →
    ∃ out, Rc4.apply data key = .ok out ∧ Rc4.apply out key = .ok data

/-- R81: the output has the length of the input; an empty input gives an empty output. On the engine, in `PH_RUN`, `n`
data bytes give `n` `DATA` responses. -/
def Obligations.OutputHasTheLengthOfTheInput : Prop :=
  (∀ data key out : List Byte, Rc4.apply data key = .ok out → out.length = data.length) ∧
  (∀ key : List Byte, 1 ≤ key.length → key.length ≤ 256 → Rc4.apply [] key = .ok []) ∧
  (∀ (s : State) (data : List Byte), s.PHASE = .phRun → s.commands = [] →
    (dataBytes (responsesTo (commandEvents (data.map .xorb)) s)).length = data.length)

/-- R82: `InvalidKey` for 0 and for 257 or more key bytes, and for no other key. -/
def Obligations.KeyBoundsAreOneTo256 : Prop :=
  ∀ data key : List Byte,
    (key.length = 0 ∨ 257 ≤ key.length → Rc4.apply data key = .error .invalidKey) ∧
    (1 ≤ key.length → key.length ≤ 256 → ∃ out, Rc4.apply data key = .ok out)

/-- R83: the host may send its events in any two runs, with any number of idle steps between; the responses and the state
are those of one run. For runs of command words this is the rules'; for runs with a reset in them it rests on the model's
choice that the events queued behind a reset stay pending, log 15 (DESIGN CHOICE, unsafe). -/
def Obligations.ChunkBoundariesChangeNothing : Prop :=
  ∀ (s : State) (es fs : List HostEvent), s.commands = [] →
    responsesTo (es ++ fs) s = responsesTo es s ++ responsesTo fs (afterEvents es s) ∧
    afterEvents (es ++ fs) s = afterEvents fs (afterEvents es s) ∧
    ∀ n, Host.Core.run Sys2Proof.core n (afterEvents es s) = .next (afterEvents es s)

/-- R77, R78: the host's command sequence, from any engine in the starting state, computes `apply`: the responses in full
for every valid key, for the empty key and for a key too long, the starting state after each, and the result the host
reports. No `END` follows an `E_INVALID_KEY`: R77 counts `L + 1` words there (log 14). -/
def Obligations.HostSequenceComputesApply : Prop :=
  ∀ (s : State) (data key : List Byte), startState s →
    (1 ≤ key.length → key.length ≤ 256 → ∃ out, Rc4.apply data key = .ok out ∧
      responsesTo (commandEvents (keyCommands key ++ dataCommands data)) s
        = List.replicate (key.length + 1) 0x0000 ++ (out.map fun b => responseWord (.data b)) ++ [0x0000] ∧
      startState (afterEvents (commandEvents (keyCommands key ++ dataCommands data)) s)) ∧
    (key.length = 0 ∨ 257 ≤ key.length → Rc4.apply data key = .error .invalidKey ∧
      responsesTo (commandEvents (keyCommands key)) s = List.replicate key.length 0x0000 ++ [0x0200] ∧
      startState (afterEvents (commandEvents (keyCommands key)) s)) ∧
    (hostApply data key s).2 = Rc4.apply data key ∧ startState (hostApply data key s).1
end

