-- ==== Sys2Proof/Laws/Decode.lean ====
section
/-! SUPPORT. The fields of a word as numbers, and the fields of a joined word. -/

namespace Sys2Proof

theorem joinFields_toNat (hi lo : Byte) : (joinFields hi lo).toNat = hi.toNat * 256 + lo.toNat := by
  have h1 : hi.toNat < 256 := hi.isLt
  have h2 : lo.toNat < 256 := lo.isLt
  simp only [joinFields, BitVec.toNat_ofNat]
  exact Nat.mod_eq_of_lt (by omega)

theorem opField_toNat (w : Word) : (opField w).toNat = w.toNat / 256 := by
  have h : w.toNat < 65536 := w.isLt
  simp only [opField, BitVec.toNat_ofNat]
  exact Nat.mod_eq_of_lt (by omega)

theorem loField_toNat (w : Word) : (loField w).toNat = w.toNat % 256 := by
  simp only [loField, BitVec.toNat_ofNat]
  exact Nat.mod_mod _ _

@[simp] theorem opField_joinFields (hi lo : Byte) : opField (joinFields hi lo) = hi := by
  have h1 : lo.toNat < 256 := lo.isLt
  apply BitVec.eq_of_toNat_eq
  rw [opField_toNat, joinFields_toNat]
  omega

@[simp] theorem loField_joinFields (hi lo : Byte) : loField (joinFields hi lo) = lo := by
  have h1 : lo.toNat < 256 := lo.isLt
  apply BitVec.eq_of_toNat_eq
  rw [loField_toNat, joinFields_toNat]
  omega

@[simp] theorem joinFields_fields (w : Word) : joinFields (opField w) (loField w) = w := by
  apply BitVec.eq_of_toNat_eq
  rw [joinFields_toNat, opField_toNat, loField_toNat]
  omega

end Sys2Proof
end

