-- ==== Sys2Proof/Laws/Operands.lean ====
section
/-! SUPPORT. The index arithmetic of R112 as natural numbers and as bytes that wrap. -/

namespace Sys2Proof.Machine

@[simp] theorem byteMod_toNat (n : Nat) : (byteMod n).toNat = n % 256 := by
  simp [byteMod]

theorem byteMod_toNat_of_lt {n : Nat} (h : n < 256) : (byteMod n).toNat = n := by
  simp [Nat.mod_eq_of_lt h]

@[simp] theorem byteMod_of_toNat (a : Byte) : byteMod a.toNat = a := by
  apply BitVec.eq_of_toNat_eq
  simpa using a.isLt

theorem byteMod_mod (n : Nat) : byteMod (n % 256) = byteMod n := by
  simp [byteMod]

theorem byteMod_inj {m n : Nat} (hm : m < 256) (hn : n < 256) (h : byteMod m = byteMod n) : m = n := by
  have := congrArg BitVec.toNat h
  simpa [Nat.mod_eq_of_lt hm, Nat.mod_eq_of_lt hn] using this

theorem nextI_eq (i : Byte) : nextI i = i + 1 := by
  apply BitVec.eq_of_toNat_eq
  simp [nextI]

theorem nextJ_eq (j si : Byte) : nextJ j si = j + si := by
  apply BitVec.eq_of_toNat_eq
  simp [nextJ]

theorem sumAddress_eq (si sj : Byte) : sumAddress si sj = si + sj := by
  apply BitVec.eq_of_toNat_eq
  simp [sumAddress]

theorem nextKsaIndex_eq (jj sii key : Byte) : nextKsaIndex jj sii key = jj + sii + key := by
  apply BitVec.eq_of_toNat_eq
  simp [nextKsaIndex]

theorem keyHasRoom_true {klen : KeyLength} : keyHasRoom klen = true ↔ klen.toNat < 256 := by
  simp [keyHasRoom]

theorem keyHasRoom_false {klen : KeyLength} : keyHasRoom klen = false ↔ 256 ≤ klen.toNat := by
  simp [keyHasRoom]

/-- The key-length check (R57, R86). -/
theorem keyInvalid_true {klen : KeyLength} {kovf : Bool} :
    keyInvalid klen kovf = true ↔ klen.toNat = 0 ∨ kovf = true := by
  simp [keyInvalid]

theorem keyInvalid_false {klen : KeyLength} {kovf : Bool} :
    keyInvalid klen kovf = false ↔ 1 ≤ klen.toNat ∧ kovf = false := by
  simp [keyInvalid, Nat.one_le_iff_ne_zero]

theorem nextKeyLength_toNat {klen : KeyLength} (h : keyHasRoom klen = true) :
    (nextKeyLength klen).toNat = klen.toNat + 1 := by
  have : klen.toNat < 256 := by simpa [keyHasRoom] using h
  simp [nextKeyLength]
  omega

theorem storeAddress_toNat {klen : KeyLength} (h : keyHasRoom klen = true) :
    (storeAddress klen).toNat = klen.toNat := by
  have : klen.toNat < 256 := by simpa [keyHasRoom] using h
  simp [storeAddress, Nat.mod_eq_of_lt this]

end Sys2Proof.Machine
end

