-- ==== Sys2Proof/Laws/Memory.lean ====
section
/-! SUPPORT. The laws of a memory: what a read gives after a write, and that every operation keeps the canonical form. -/

namespace Sys2Proof.Machine

@[simp] theorem Memory.read?_nil (a : Nat) : Memory.read? [] a = none := rfl

/-- A read after a write to the same entry gives the value written (R26). -/
@[simp] theorem Memory.read?_write_same (m : Memory) (a : Nat) (v : Byte) :
    (Memory.write m a v).read? a = some v := by
  induction m with
  | nil => simp [Memory.write, Memory.read?]
  | cons c m ih =>
    obtain ⟨b, u⟩ := c
    by_cases h : a < b
    · simp [Memory.write, Memory.read?, h]
    · by_cases h' : a = b
      · simp [Memory.write, Memory.read?, h']
      · simp [Memory.write, Memory.read?, h, h', ih]

/-- A write changes no other entry (R26). -/
theorem Memory.read?_write_other (m : Memory) {a b : Nat} (v : Byte) (hb : b ≠ a) :
    (Memory.write m a v).read? b = m.read? b := by
  induction m with
  | nil => simp [Memory.write, Memory.read?, hb]
  | cons c m ih =>
    obtain ⟨d, u⟩ := c
    by_cases h : a < d
    · simp [Memory.write, Memory.read?, h, hb]
    · by_cases h' : a = d
      · subst h'
        simp [Memory.write, Memory.read?, hb]
      · simp [Memory.write, Memory.read?, h, h', ih]

theorem Memory.read?_write (m : Memory) (a b : Nat) (v : Byte) :
    (Memory.write m a v).read? b = if b = a then some v else m.read? b := by
  split
  · next h => subst h; exact Memory.read?_write_same m b v
  · next h => exact Memory.read?_write_other m v h

theorem Memory.wf_iff (m : Memory) :
    m.wf = true ↔ (m.Pairwise fun c d => c.1 < d.1) ∧ ∀ c ∈ m, c.1 < 256 := by
  simp only [Memory.wf, Bool.and_eq_true, decide_eq_true_eq, List.all_eq_true]
  exact Iff.rfl

@[simp] theorem Memory.wf_nil : Memory.wf [] = true := rfl

/-- The addresses a write leaves listed. -/
theorem Memory.mem_write {m : Memory} {a : Nat} {v : Byte} {c : Host.Cell} (h : c ∈ Memory.write m a v) :
    c = (a, v) ∨ c ∈ m := by
  induction m with
  | nil => simpa [Memory.write] using h
  | cons d m ih =>
    obtain ⟨b, u⟩ := d
    by_cases h1 : a < b
    · simpa [Memory.write, h1] using h
    · by_cases h2 : a = b
      · subst h2
        simp only [Memory.write, lt_irrefl, if_false, if_true, List.mem_cons] at h
        rcases h with h | h
        · exact .inl h
        · exact .inr (List.mem_cons_of_mem _ h)
      · simp only [Memory.write, h1, h2, if_false, List.mem_cons] at h
        rcases h with h | h
        · exact .inr (by simp [h])
        · rcases ih h with h | h
          · exact .inl h
          · exact .inr (List.mem_cons_of_mem _ h)

/-- A write keeps the canonical form. -/
theorem Memory.wf_write {m : Memory} {a : Nat} (v : Byte) (hm : m.wf = true) (ha : a < 256) :
    (Memory.write m a v).wf = true := by
  rw [Memory.wf_iff] at hm ⊢
  refine ⟨?_, fun c hc => ?_⟩
  · obtain ⟨hp, -⟩ := hm
    induction m with
    | nil => simp [Memory.write]
    | cons d m ih =>
      obtain ⟨b, u⟩ := d
      rw [List.pairwise_cons] at hp
      by_cases h1 : a < b
      · simp only [Memory.write, h1, if_true]
        refine List.pairwise_cons.2 ⟨fun c hc => ?_, List.pairwise_cons.2 hp⟩
        rcases List.mem_cons.1 hc with rfl | hc
        · exact h1
        · exact h1.trans (hp.1 c hc)
      · by_cases h2 : a = b
        · subst h2
          simpa [Memory.write] using hp
        · simp only [Memory.write, h1, h2, if_false]
          refine List.pairwise_cons.2 ⟨fun c hc => ?_, ih hp.2⟩
          rcases Memory.mem_write hc with rfl | hc
          · exact show b < a by omega
          · exact hp.1 c hc
  · rcases Memory.mem_write hc with rfl | hc
    · exact ha
    · exact hm.2 c hc

/-- In a canonical memory whose addresses all lie above `a`, entry `a` is unlisted. -/
theorem Memory.read?_none_of_lt {m : Memory} {a : Nat} (h : ∀ c ∈ m, a < c.1) : m.read? a = none := by
  induction m with
  | nil => rfl
  | cons d m ih =>
    have hd := h d (by simp)
    have hne : a ≠ d.1 := by omega
    simp [Memory.read?, hne, ih fun c hc => h c (List.mem_cons_of_mem _ hc)]

/-- Equal memories are equal data: two canonical lists that read alike are the same list. -/
theorem Memory.ext_read? {m n : Memory} (hm : m.wf = true) (hn : n.wf = true)
    (h : ∀ a, m.read? a = n.read? a) : m = n := by
  replace hm := ((Memory.wf_iff m).1 hm).1
  replace hn := ((Memory.wf_iff n).1 hn).1
  revert hm hn
  induction m generalizing n with
  | nil =>
    intro _ _
    cases n with
    | nil => rfl
    | cons d n => simpa [Memory.read?] using h d.1
  | cons c m ih =>
    intro hm hn
    cases n with
    | nil => simpa [Memory.read?] using h c.1
    | cons d n =>
      rw [List.pairwise_cons] at hm hn
      obtain ⟨a, u⟩ := c
      obtain ⟨b, v⟩ := d
      have hab : a = b := by
        rcases Nat.lt_trichotomy a b with hlt | heq | hlt
        · have := h a
          rw [Memory.read?_none_of_lt (m := (b, v) :: n)] at this
          · simp [Memory.read?] at this
          · intro c hc
            rcases List.mem_cons.1 hc with rfl | hc
            · exact hlt
            · exact hlt.trans (hn.1 c hc)
        · exact heq
        · have := h b
          rw [Memory.read?_none_of_lt (m := (a, u) :: m)] at this
          · simp [Memory.read?] at this
          · intro c hc
            rcases List.mem_cons.1 hc with rfl | hc
            · exact hlt
            · exact hlt.trans (hm.1 c hc)
      subst hab
      have huv : u = v := by simpa [Memory.read?] using h a
      subst huv
      refine congrArg _ (ih (fun x => ?_) hm.2 hn.2)
      by_cases hx : x = a
      · subst hx
        rw [Memory.read?_none_of_lt fun c hc => hm.1 c hc, Memory.read?_none_of_lt fun c hc => hn.1 c hc]
      · simpa [Memory.read?, hx] using h x

end Sys2Proof.Machine
end

