-- ==== Sys2Proof/Laws/State.lean ====
section
/-! SUPPORT. One lemma for each field and each named update of the state: what the update leaves in the field. -/

namespace Sys2Proof.Machine

@[simp] theorem sWrite_S (a v : Byte) (s : State) : (sWrite a v s).S = s.S.write a.toNat v := (rfl)
@[simp] theorem sWrite_i (a v : Byte) (s : State) : (sWrite a v s).i = s.i := (rfl)
@[simp] theorem sWrite_j (a v : Byte) (s : State) : (sWrite a v s).j = s.j := (rfl)
@[simp] theorem sWrite_K (a v : Byte) (s : State) : (sWrite a v s).K = s.K := (rfl)
@[simp] theorem sWrite_KLEN (a v : Byte) (s : State) : (sWrite a v s).KLEN = s.KLEN := (rfl)
@[simp] theorem sWrite_KOVF (a v : Byte) (s : State) : (sWrite a v s).KOVF = s.KOVF := (rfl)
@[simp] theorem sWrite_PHASE (a v : Byte) (s : State) : (sWrite a v s).PHASE = s.PHASE := (rfl)
@[simp] theorem sWrite_commands (a v : Byte) (s : State) : (sWrite a v s).commands = s.commands := (rfl)
@[simp] theorem sWrite_responses (a v : Byte) (s : State) : (sWrite a v s).responses = s.responses := (rfl)
@[simp] theorem sWrite_freeIndex (a v : Byte) (s : State) : (sWrite a v s).freeIndex = s.freeIndex := (rfl)

@[simp] theorem kWrite_S (a v : Byte) (s : State) : (kWrite a v s).S = s.S := (rfl)
@[simp] theorem kWrite_i (a v : Byte) (s : State) : (kWrite a v s).i = s.i := (rfl)
@[simp] theorem kWrite_j (a v : Byte) (s : State) : (kWrite a v s).j = s.j := (rfl)
@[simp] theorem kWrite_K (a v : Byte) (s : State) : (kWrite a v s).K = s.K.write a.toNat v := (rfl)
@[simp] theorem kWrite_KLEN (a v : Byte) (s : State) : (kWrite a v s).KLEN = s.KLEN := (rfl)
@[simp] theorem kWrite_KOVF (a v : Byte) (s : State) : (kWrite a v s).KOVF = s.KOVF := (rfl)
@[simp] theorem kWrite_PHASE (a v : Byte) (s : State) : (kWrite a v s).PHASE = s.PHASE := (rfl)
@[simp] theorem kWrite_commands (a v : Byte) (s : State) : (kWrite a v s).commands = s.commands := (rfl)
@[simp] theorem kWrite_responses (a v : Byte) (s : State) : (kWrite a v s).responses = s.responses := (rfl)
@[simp] theorem kWrite_freeIndex (a v : Byte) (s : State) : (kWrite a v s).freeIndex = s.freeIndex := (rfl)

@[simp] theorem sSwap_S (a b : Byte) (s : State) : (sSwap a b s).S = (s.S.write a.toNat (sRead s b)).write b.toNat (sRead s a) := (rfl)
@[simp] theorem sSwap_i (a b : Byte) (s : State) : (sSwap a b s).i = s.i := (rfl)
@[simp] theorem sSwap_j (a b : Byte) (s : State) : (sSwap a b s).j = s.j := (rfl)
@[simp] theorem sSwap_K (a b : Byte) (s : State) : (sSwap a b s).K = s.K := (rfl)
@[simp] theorem sSwap_KLEN (a b : Byte) (s : State) : (sSwap a b s).KLEN = s.KLEN := (rfl)
@[simp] theorem sSwap_KOVF (a b : Byte) (s : State) : (sSwap a b s).KOVF = s.KOVF := (rfl)
@[simp] theorem sSwap_PHASE (a b : Byte) (s : State) : (sSwap a b s).PHASE = s.PHASE := (rfl)
@[simp] theorem sSwap_commands (a b : Byte) (s : State) : (sSwap a b s).commands = s.commands := (rfl)
@[simp] theorem sSwap_responses (a b : Byte) (s : State) : (sSwap a b s).responses = s.responses := (rfl)
@[simp] theorem sSwap_freeIndex (a b : Byte) (s : State) : (sSwap a b s).freeIndex = s.freeIndex := (rfl)

@[simp] theorem deadenS_S (s : State) : (deadenS s).S = [] := (rfl)
@[simp] theorem deadenS_i (s : State) : (deadenS s).i = s.i := (rfl)
@[simp] theorem deadenS_j (s : State) : (deadenS s).j = s.j := (rfl)
@[simp] theorem deadenS_K (s : State) : (deadenS s).K = s.K := (rfl)
@[simp] theorem deadenS_KLEN (s : State) : (deadenS s).KLEN = s.KLEN := (rfl)
@[simp] theorem deadenS_KOVF (s : State) : (deadenS s).KOVF = s.KOVF := (rfl)
@[simp] theorem deadenS_PHASE (s : State) : (deadenS s).PHASE = s.PHASE := (rfl)
@[simp] theorem deadenS_commands (s : State) : (deadenS s).commands = s.commands := (rfl)
@[simp] theorem deadenS_responses (s : State) : (deadenS s).responses = s.responses := (rfl)
@[simp] theorem deadenS_freeIndex (s : State) : (deadenS s).freeIndex = s.freeIndex := (rfl)

@[simp] theorem deadenK_S (s : State) : (deadenK s).S = s.S := (rfl)
@[simp] theorem deadenK_i (s : State) : (deadenK s).i = s.i := (rfl)
@[simp] theorem deadenK_j (s : State) : (deadenK s).j = s.j := (rfl)
@[simp] theorem deadenK_K (s : State) : (deadenK s).K = [] := (rfl)
@[simp] theorem deadenK_KLEN (s : State) : (deadenK s).KLEN = s.KLEN := (rfl)
@[simp] theorem deadenK_KOVF (s : State) : (deadenK s).KOVF = s.KOVF := (rfl)
@[simp] theorem deadenK_PHASE (s : State) : (deadenK s).PHASE = s.PHASE := (rfl)
@[simp] theorem deadenK_commands (s : State) : (deadenK s).commands = s.commands := (rfl)
@[simp] theorem deadenK_responses (s : State) : (deadenK s).responses = s.responses := (rfl)
@[simp] theorem deadenK_freeIndex (s : State) : (deadenK s).freeIndex = s.freeIndex := (rfl)

@[simp] theorem deadenIndices_S (s : State) : (deadenIndices s).S = s.S := (rfl)
@[simp] theorem deadenIndices_i (s : State) : (deadenIndices s).i = Config.deadI s.freeIndex := (rfl)
@[simp] theorem deadenIndices_j (s : State) : (deadenIndices s).j = Config.deadJ s.freeIndex := (rfl)
@[simp] theorem deadenIndices_K (s : State) : (deadenIndices s).K = s.K := (rfl)
@[simp] theorem deadenIndices_KLEN (s : State) : (deadenIndices s).KLEN = s.KLEN := (rfl)
@[simp] theorem deadenIndices_KOVF (s : State) : (deadenIndices s).KOVF = s.KOVF := (rfl)
@[simp] theorem deadenIndices_PHASE (s : State) : (deadenIndices s).PHASE = s.PHASE := (rfl)
@[simp] theorem deadenIndices_commands (s : State) : (deadenIndices s).commands = s.commands := (rfl)
@[simp] theorem deadenIndices_responses (s : State) : (deadenIndices s).responses = s.responses := (rfl)
@[simp] theorem deadenIndices_freeIndex (s : State) : (deadenIndices s).freeIndex = s.freeIndex := (rfl)

@[simp] theorem clearKeyLength_S (s : State) : (clearKeyLength s).S = s.S := (rfl)
@[simp] theorem clearKeyLength_i (s : State) : (clearKeyLength s).i = s.i := (rfl)
@[simp] theorem clearKeyLength_j (s : State) : (clearKeyLength s).j = s.j := (rfl)
@[simp] theorem clearKeyLength_K (s : State) : (clearKeyLength s).K = s.K := (rfl)
@[simp] theorem clearKeyLength_KLEN (s : State) : (clearKeyLength s).KLEN = 0 := (rfl)
@[simp] theorem clearKeyLength_KOVF (s : State) : (clearKeyLength s).KOVF = false := (rfl)
@[simp] theorem clearKeyLength_PHASE (s : State) : (clearKeyLength s).PHASE = s.PHASE := (rfl)
@[simp] theorem clearKeyLength_commands (s : State) : (clearKeyLength s).commands = s.commands := (rfl)
@[simp] theorem clearKeyLength_responses (s : State) : (clearKeyLength s).responses = s.responses := (rfl)
@[simp] theorem clearKeyLength_freeIndex (s : State) : (clearKeyLength s).freeIndex = s.freeIndex := (rfl)

@[simp] theorem respond_S (r : Response) (s : State) : (respond r s).S = s.S := (rfl)
@[simp] theorem respond_i (r : Response) (s : State) : (respond r s).i = s.i := (rfl)
@[simp] theorem respond_j (r : Response) (s : State) : (respond r s).j = s.j := (rfl)
@[simp] theorem respond_K (r : Response) (s : State) : (respond r s).K = s.K := (rfl)
@[simp] theorem respond_KLEN (r : Response) (s : State) : (respond r s).KLEN = s.KLEN := (rfl)
@[simp] theorem respond_KOVF (r : Response) (s : State) : (respond r s).KOVF = s.KOVF := (rfl)
@[simp] theorem respond_PHASE (r : Response) (s : State) : (respond r s).PHASE = s.PHASE := (rfl)
@[simp] theorem respond_commands (r : Response) (s : State) : (respond r s).commands = s.commands := (rfl)
@[simp] theorem respond_responses (r : Response) (s : State) : (respond r s).responses = s.responses ++ [responseWord r] := (rfl)
@[simp] theorem respond_freeIndex (r : Response) (s : State) : (respond r s).freeIndex = s.freeIndex := (rfl)

@[simp] theorem setOverflow_S (s : State) : (setOverflow s).S = s.S := (rfl)
@[simp] theorem setOverflow_i (s : State) : (setOverflow s).i = s.i := (rfl)
@[simp] theorem setOverflow_j (s : State) : (setOverflow s).j = s.j := (rfl)
@[simp] theorem setOverflow_K (s : State) : (setOverflow s).K = s.K := (rfl)
@[simp] theorem setOverflow_KLEN (s : State) : (setOverflow s).KLEN = s.KLEN := (rfl)
@[simp] theorem setOverflow_KOVF (s : State) : (setOverflow s).KOVF = true := (rfl)
@[simp] theorem setOverflow_PHASE (s : State) : (setOverflow s).PHASE = s.PHASE := (rfl)
@[simp] theorem setOverflow_commands (s : State) : (setOverflow s).commands = s.commands := (rfl)
@[simp] theorem setOverflow_responses (s : State) : (setOverflow s).responses = s.responses := (rfl)
@[simp] theorem setOverflow_freeIndex (s : State) : (setOverflow s).freeIndex = s.freeIndex := (rfl)

@[simp] theorem appendKeyByte_S (b : Byte) (s : State) : (appendKeyByte b s).S = s.S := (rfl)
@[simp] theorem appendKeyByte_i (b : Byte) (s : State) : (appendKeyByte b s).i = s.i := (rfl)
@[simp] theorem appendKeyByte_j (b : Byte) (s : State) : (appendKeyByte b s).j = s.j := (rfl)
@[simp] theorem appendKeyByte_K (b : Byte) (s : State) : (appendKeyByte b s).K = s.K.write (storeAddress s.KLEN).toNat b := (rfl)
@[simp] theorem appendKeyByte_KLEN (b : Byte) (s : State) : (appendKeyByte b s).KLEN = nextKeyLength s.KLEN := (rfl)
@[simp] theorem appendKeyByte_KOVF (b : Byte) (s : State) : (appendKeyByte b s).KOVF = s.KOVF := (rfl)
@[simp] theorem appendKeyByte_PHASE (b : Byte) (s : State) : (appendKeyByte b s).PHASE = s.PHASE := (rfl)
@[simp] theorem appendKeyByte_commands (b : Byte) (s : State) : (appendKeyByte b s).commands = s.commands := (rfl)
@[simp] theorem appendKeyByte_responses (b : Byte) (s : State) : (appendKeyByte b s).responses = s.responses := (rfl)
@[simp] theorem appendKeyByte_freeIndex (b : Byte) (s : State) : (appendKeyByte b s).freeIndex = s.freeIndex := (rfl)

@[simp] theorem enterRun_S (s : State) : (enterRun s).S = s.S := (rfl)
@[simp] theorem enterRun_i (s : State) : (enterRun s).i = 0 := (rfl)
@[simp] theorem enterRun_j (s : State) : (enterRun s).j = 0 := (rfl)
@[simp] theorem enterRun_K (s : State) : (enterRun s).K = [] := (rfl)
@[simp] theorem enterRun_KLEN (s : State) : (enterRun s).KLEN = 0 := (rfl)
@[simp] theorem enterRun_KOVF (s : State) : (enterRun s).KOVF = false := (rfl)
@[simp] theorem enterRun_PHASE (s : State) : (enterRun s).PHASE = .phRun := (rfl)
@[simp] theorem enterRun_commands (s : State) : (enterRun s).commands = s.commands := (rfl)
@[simp] theorem enterRun_responses (s : State) : (enterRun s).responses = s.responses := (rfl)
@[simp] theorem enterRun_freeIndex (s : State) : (enterRun s).freeIndex = s.freeIndex := (rfl)

@[simp] theorem advanceI_S (s : State) : (advanceI s).S = s.S := (rfl)
@[simp] theorem advanceI_i (s : State) : (advanceI s).i = nextI s.i := (rfl)
@[simp] theorem advanceI_j (s : State) : (advanceI s).j = s.j := (rfl)
@[simp] theorem advanceI_K (s : State) : (advanceI s).K = s.K := (rfl)
@[simp] theorem advanceI_KLEN (s : State) : (advanceI s).KLEN = s.KLEN := (rfl)
@[simp] theorem advanceI_KOVF (s : State) : (advanceI s).KOVF = s.KOVF := (rfl)
@[simp] theorem advanceI_PHASE (s : State) : (advanceI s).PHASE = s.PHASE := (rfl)
@[simp] theorem advanceI_commands (s : State) : (advanceI s).commands = s.commands := (rfl)
@[simp] theorem advanceI_responses (s : State) : (advanceI s).responses = s.responses := (rfl)
@[simp] theorem advanceI_freeIndex (s : State) : (advanceI s).freeIndex = s.freeIndex := (rfl)

@[simp] theorem advanceJ_S (s : State) : (advanceJ s).S = s.S := (rfl)
@[simp] theorem advanceJ_i (s : State) : (advanceJ s).i = s.i := (rfl)
@[simp] theorem advanceJ_j (s : State) : (advanceJ s).j = nextJ s.j (sRead s s.i) := (rfl)
@[simp] theorem advanceJ_K (s : State) : (advanceJ s).K = s.K := (rfl)
@[simp] theorem advanceJ_KLEN (s : State) : (advanceJ s).KLEN = s.KLEN := (rfl)
@[simp] theorem advanceJ_KOVF (s : State) : (advanceJ s).KOVF = s.KOVF := (rfl)
@[simp] theorem advanceJ_PHASE (s : State) : (advanceJ s).PHASE = s.PHASE := (rfl)
@[simp] theorem advanceJ_commands (s : State) : (advanceJ s).commands = s.commands := (rfl)
@[simp] theorem advanceJ_responses (s : State) : (advanceJ s).responses = s.responses := (rfl)
@[simp] theorem advanceJ_freeIndex (s : State) : (advanceJ s).freeIndex = s.freeIndex := (rfl)

@[simp] theorem endWrites_S (s : State) : (endWrites s).S = [] := (rfl)
@[simp] theorem endWrites_i (s : State) : (endWrites s).i = Config.deadI s.freeIndex := (rfl)
@[simp] theorem endWrites_j (s : State) : (endWrites s).j = Config.deadJ s.freeIndex := (rfl)
@[simp] theorem endWrites_K (s : State) : (endWrites s).K = [] := (rfl)
@[simp] theorem endWrites_KLEN (s : State) : (endWrites s).KLEN = 0 := (rfl)
@[simp] theorem endWrites_KOVF (s : State) : (endWrites s).KOVF = false := (rfl)
@[simp] theorem endWrites_PHASE (s : State) : (endWrites s).PHASE = .phKey := (rfl)
@[simp] theorem endWrites_commands (s : State) : (endWrites s).commands = s.commands := (rfl)
@[simp] theorem endWrites_responses (s : State) : (endWrites s).responses = s.responses := (rfl)
@[simp] theorem endWrites_freeIndex (s : State) : (endWrites s).freeIndex = s.freeIndex := (rfl)

@[simp] theorem resetEvent_S (s : State) : (resetEvent s).S = [] := (rfl)
@[simp] theorem resetEvent_i (s : State) : (resetEvent s).i = Config.deadI s.freeIndex := (rfl)
@[simp] theorem resetEvent_j (s : State) : (resetEvent s).j = Config.deadJ s.freeIndex := (rfl)
@[simp] theorem resetEvent_K (s : State) : (resetEvent s).K = [] := (rfl)
@[simp] theorem resetEvent_KLEN (s : State) : (resetEvent s).KLEN = 0 := (rfl)
@[simp] theorem resetEvent_KOVF (s : State) : (resetEvent s).KOVF = false := (rfl)
@[simp] theorem resetEvent_PHASE (s : State) : (resetEvent s).PHASE = .phKey := (rfl)
@[simp] theorem resetEvent_commands (s : State) : (resetEvent s).commands = s.commands := (rfl)
@[simp] theorem resetEvent_responses (s : State) : (resetEvent s).responses = s.responses := (rfl)
@[simp] theorem resetEvent_freeIndex (s : State) : (resetEvent s).freeIndex = s.freeIndex := (rfl)

@[simp] theorem placeCommand_S (w : Word) (s : State) : (placeCommand w s).S = s.S := (rfl)
@[simp] theorem placeCommand_i (w : Word) (s : State) : (placeCommand w s).i = s.i := (rfl)
@[simp] theorem placeCommand_j (w : Word) (s : State) : (placeCommand w s).j = s.j := (rfl)
@[simp] theorem placeCommand_K (w : Word) (s : State) : (placeCommand w s).K = s.K := (rfl)
@[simp] theorem placeCommand_KLEN (w : Word) (s : State) : (placeCommand w s).KLEN = s.KLEN := (rfl)
@[simp] theorem placeCommand_KOVF (w : Word) (s : State) : (placeCommand w s).KOVF = s.KOVF := (rfl)
@[simp] theorem placeCommand_PHASE (w : Word) (s : State) : (placeCommand w s).PHASE = s.PHASE := (rfl)
@[simp] theorem placeCommand_commands (w : Word) (s : State) : (placeCommand w s).commands = .command w :: s.commands := (rfl)
@[simp] theorem placeCommand_responses (w : Word) (s : State) : (placeCommand w s).responses = s.responses := (rfl)
@[simp] theorem placeCommand_freeIndex (w : Word) (s : State) : (placeCommand w s).freeIndex = s.freeIndex := (rfl)

@[simp] theorem issue_S (es : List HostEvent) (s : State) : (issue es s).S = s.S := (rfl)
@[simp] theorem issue_i (es : List HostEvent) (s : State) : (issue es s).i = s.i := (rfl)
@[simp] theorem issue_j (es : List HostEvent) (s : State) : (issue es s).j = s.j := (rfl)
@[simp] theorem issue_K (es : List HostEvent) (s : State) : (issue es s).K = s.K := (rfl)
@[simp] theorem issue_KLEN (es : List HostEvent) (s : State) : (issue es s).KLEN = s.KLEN := (rfl)
@[simp] theorem issue_KOVF (es : List HostEvent) (s : State) : (issue es s).KOVF = s.KOVF := (rfl)
@[simp] theorem issue_PHASE (es : List HostEvent) (s : State) : (issue es s).PHASE = s.PHASE := (rfl)
@[simp] theorem issue_commands (es : List HostEvent) (s : State) : (issue es s).commands = s.commands ++ es := (rfl)
@[simp] theorem issue_responses (es : List HostEvent) (s : State) : (issue es s).responses = s.responses := (rfl)
@[simp] theorem issue_freeIndex (es : List HostEvent) (s : State) : (issue es s).freeIndex = s.freeIndex := (rfl)

end Sys2Proof.Machine
end

