-- ==== Sys2Proof/Laws/Ops.lean ====
section
/-! SUPPORT. The shared operations: accesses of the two spaces, the swap, the phase check, raising an error. Each lemma
says all its operation does, so that callers need not unfold it. -/

namespace Sys2Proof.Machine

theorem sRead_of_read? {s : State} {a v : Byte} (h : s.S.read? a.toNat = some v) : sRead s a = v := by
  simp [sRead, h]

@[simp] theorem sRead_sWrite_same (a v : Byte) (s : State) : sRead (sWrite a v s) a = v := by
  simp [sRead]

theorem sRead_sWrite (a v x : Byte) (s : State) :
    sRead (sWrite a v s) x = if x = a then v else sRead s x := by
  by_cases h : x = a
  · simp [h]
  · have : x.toNat ≠ a.toNat := fun e => h (BitVec.eq_of_toNat_eq e)
    simp [sRead, Memory.read?_write_other _ _ this, h]

theorem kRead_kWrite (a v x : Byte) (s : State) :
    kRead (kWrite a v s) x = if x = a then v else kRead s x := by
  by_cases h : x = a
  · simp [kRead, h]
  · have : x.toNat ≠ a.toNat := fun e => h (BitVec.eq_of_toNat_eq e)
    simp [kRead, Memory.read?_write_other _ _ this, h]

/-- Reads of `S` depend on `S` and the counter of free values only. -/
theorem sRead_congr {s t : State} (hS : s.S = t.S) (hf : s.freeIndex = t.freeIndex) : sRead s = sRead t := by
  funext a
  simp [sRead, hS, hf]

/-- Reads of `K` depend on `K` and the counter of free values only. -/
theorem kRead_congr {s t : State} (hK : s.K = t.K) (hf : s.freeIndex = t.freeIndex) : kRead s = kRead t := by
  funext a
  simp [kRead, hK, hf]

/-- The swap on the engine's `S` is the exchange of two entries of the sequence it reads as (R35). -/
theorem sRead_sSwap (a b : Byte) (s : State) : sRead (sSwap a b s) = Rc4.exchange (sRead s) a b := by
  funext x
  simp only [sSwap, sRead_sWrite, Rc4.exchange]
  by_cases hb : x = b
  · subst hb
    by_cases ha : x = a
    · simp [ha]
    · simp [ha]
  · by_cases ha : x = a
    · subst ha
      simp [hb]
    · simp [ha, hb]

@[simp] theorem kRead_sSwap (a b : Byte) (s : State) : kRead (sSwap a b s) = kRead s := kRead_congr rfl rfl

@[simp] theorem kRead_sWrite (a v : Byte) (s : State) : kRead (sWrite a v s) = kRead s := kRead_congr rfl rfl

theorem isSome_read?_sWrite {s : State} (a v : Byte) {x : Byte} (h : (s.S.read? x.toNat).isSome = true) :
    ((sWrite a v s).S.read? x.toNat).isSome = true := by
  simp only [sWrite_S, Memory.read?_write]
  split <;> simp [h]

/-- A swap leaves every entry that had a value with a value. -/
theorem isSome_read?_sSwap {s : State} (a b : Byte) {x : Byte} (h : (s.S.read? x.toNat).isSome = true) :
    ((sSwap a b s).S.read? x.toNat).isSome = true :=
  isSome_read?_sWrite _ _ (isSome_read?_sWrite _ _ h)

theorem wf_sWrite {s : State} (a v : Byte) (h : s.S.wf = true) : (sWrite a v s).S.wf = true :=
  Memory.wf_write v h a.isLt

theorem wf_kWrite {s : State} (a v : Byte) (h : s.K.wf = true) : (kWrite a v s).K.wf = true :=
  Memory.wf_write v h a.isLt

theorem wf_sSwap {s : State} (a b : Byte) (h : s.S.wf = true) : (sSwap a b s).S.wf = true :=
  wf_sWrite _ _ (wf_sWrite _ _ h)

/-- An exchange of two entries keeps a bijection a bijection (R35). -/
theorem exchange_bijective {S : Rc4.SBox} (h : Function.Bijective S) (a b : Byte) :
    Function.Bijective (Rc4.exchange S a b) := by
  have : Rc4.exchange S a b = S ∘ Equiv.swap a b := by
    funext x
    simp only [Rc4.exchange, Function.comp_apply, Equiv.swap_apply_def]
    split
    · rfl
    · split <;> rfl
  rw [this]
  exact h.comp (Equiv.swap a b).bijective

theorem inPhase_of_eq {p : Phase} {s : State} (body : State → Host.Outcome State Fault Refusal)
    (h : s.PHASE = p) : inPhase p body s = body s := by
  simp [inPhase, h]

/-- In another phase a command raises `SequenceError` (R87). -/
theorem inPhase_of_ne {p : Phase} {s : State} (body : State → Host.Outcome State Fault Refusal)
    (h : s.PHASE ≠ p) : inPhase p body s = raise .sequenceError s := by
  simp [inPhase, h]

/-- A command that completes answers the state with its response emitted, and no other. -/
theorem complete_next {r : Response} {s t : State} : complete r s = .next t ↔ respond r s = t := by
  constructor
  · intro h
    exact Host.Outcome.next.inj h
  · rintro rfl
    rfl

/-- A command that raises an error answers the state with the error's writes and its response, and no other. -/
theorem raise_next {e : EngineError} {s t : State} :
    raise e s = .next t ↔ respond (.error e) (errorWrites e s) = t := complete_next

/-- `SequenceError` and `IllegalCommand` write no state (R87, R88, R91). -/
theorem raise_sequenceError (s : State) :
    raise .sequenceError s = .next { s with responses := s.responses ++ [0x0300] } := rfl

theorem raise_illegalCommand (s : State) :
    raise .illegalCommand s = .next { s with responses := s.responses ++ [0x0400] } := rfl

/-- `InvalidKey` clears the key and nothing else (R91). -/
theorem raise_invalidKey (s : State) :
    raise .invalidKey s = .next { s with KLEN := 0, KOVF := false, K := [], responses := s.responses ++ [0x0200] } := rfl

theorem complete_ok (s : State) : complete .ok s = .next { s with responses := s.responses ++ [0x0000] } := rfl

end Sys2Proof.Machine
end

