-- ==== Sys2Proof/Laws/KeySchedule.lean ====
section
/-! SUPPORT. The key schedule: what the identity pass and the 256 rounds leave, and that the rounds on the engine's memory
are those of the pure function `ksa` (R59). -/

namespace Sys2Proof.Machine

/-- Two operations that write `S` alone, one after the other, write `S` alone. -/
theorem onlyS_trans {s t u : State} (h1 : t = { s with S := t.S }) (h2 : u = { t with S := u.S }) :
    u = { s with S := u.S } := by
  cases s; cases t; cases u
  simp_all

/-- A fold of operations that write `S` alone writes `S` alone. -/
theorem onlyS_foldl {α : Type} (f : State → α → State) (hf : ∀ s a, f s a = { s with S := (f s a).S })
    (l : List α) (s : State) : l.foldl f s = { s with S := (l.foldl f s).S } := by
  induction l generalizing s with
  | nil => rfl
  | cons a l ih => exact onlyS_trans (hf s a) (ih (f s a))

/-- The identity pass writes `S` alone. -/
theorem ksaIdentity_eq (s : State) : ksaIdentity s = { s with S := (ksaIdentity s).S } := by
  unfold ksaIdentity
  exact onlyS_foldl _ (fun _ _ => rfl) _ s

/-- `S[a] <- a` for the first `n` entries. -/
theorem read?_identity_pass (s : State) {n : Nat} (hn : n ≤ 256) {x : Nat} (hx : x < n) :
    ((List.range n).foldl (fun t a => sWrite (loopAddress a) (loopAddress a) t) s).S.read? x = some (byteMod x) := by
  induction n with
  | zero => omega
  | succ n ih =>
    rw [List.range_succ, List.foldl_append]
    simp only [List.foldl_cons, List.foldl_nil, sWrite_S, loopAddress, byteMod_toNat_of_lt (show n < 256 by omega)]
    rw [Memory.read?_write]
    split
    · next h => rw [h]
    · next h => exact ih (by omega) (by omega)

/-- After the identity pass every entry holds its own number (R57). -/
theorem read?_ksaIdentity (s : State) (a : Byte) : (ksaIdentity s).S.read? a.toNat = some a := by
  have := read?_identity_pass s le_rfl (x := a.toNat) a.isLt
  simpa [ksaIdentity] using this

theorem sRead_ksaIdentity (s : State) : sRead (ksaIdentity s) = Rc4.identity := by
  funext a
  exact sRead_of_read? (read?_ksaIdentity s a)

theorem kRead_ksaIdentity (s : State) : kRead (ksaIdentity s) = kRead s := by
  rw [ksaIdentity_eq]
  exact kRead_congr rfl rfl

theorem wf_ksaIdentity {s : State} (h : s.S.wf = true) : (ksaIdentity s).S.wf = true := by
  unfold ksaIdentity
  generalize List.range 256 = l
  induction l generalizing s with
  | nil => exact h
  | cons a l ih => exact ih (wf_sWrite _ _ h)

/-- The engine after `r` rounds of the key schedule, and the running index `jj`. -/
def ksaRoundsTo (len : Nat) (s : State) (r : Nat) : State × Byte := (List.range r).foldl (ksaRound len) (s, 0)

theorem ksaRoundsTo_zero (len : Nat) (s : State) : ksaRoundsTo len s 0 = (s, 0) := rfl

theorem ksaRoundsTo_succ (len : Nat) (s : State) (r : Nat) :
    ksaRoundsTo len s (r + 1) = ksaRound len (ksaRoundsTo len s r) r := by
  simp [ksaRoundsTo, List.range_succ]

theorem ksaRounds_eq (len : Nat) (s : State) : ksaRounds len s = ksaRoundsTo len s 256 := rfl

/-- The rounds write `S` alone. -/
theorem ksaRoundsTo_fst_eq (len : Nat) (s : State) (r : Nat) :
    (ksaRoundsTo len s r).1 = { s with S := (ksaRoundsTo len s r).1.S } := by
  induction r with
  | zero => rfl
  | succ r ih =>
    rw [ksaRoundsTo_succ]
    exact onlyS_trans ih rfl

theorem kRead_ksaRoundsTo (len : Nat) (s : State) (r : Nat) : kRead (ksaRoundsTo len s r).1 = kRead s := by
  rw [ksaRoundsTo_fst_eq]
  exact kRead_congr rfl rfl

theorem isSome_read?_ksaRoundsTo (len : Nat) {s : State} (r : Nat) {x : Byte}
    (h : (s.S.read? x.toNat).isSome = true) : ((ksaRoundsTo len s r).1.S.read? x.toNat).isSome = true := by
  induction r with
  | zero => exact h
  | succ r ih =>
    rw [ksaRoundsTo_succ]
    exact isSome_read?_sSwap _ _ ih

theorem wf_ksaRoundsTo (len : Nat) {s : State} (r : Nat) (h : s.S.wf = true) :
    (ksaRoundsTo len s r).1.S.wf = true := by
  induction r with
  | zero => exact h
  | succ r ih =>
    rw [ksaRoundsTo_succ]
    exact wf_sSwap _ _ ih

/-- The engine's rounds are the rounds of the pure function, for any key whose bytes the engine reads (R58, R59). -/
theorem ksaRoundsTo_refines {len : Nat} {s : State} {key : List Byte} (hS : sRead s = Rc4.identity)
    (hK : ∀ ii, kRead s (keyAddress ii len) = Rc4.keyByte key ii) (r : Nat) :
    sRead (ksaRoundsTo len s r).1 = (Rc4.ksaAfter key r).1 ∧ (ksaRoundsTo len s r).2 = (Rc4.ksaAfter key r).2 := by
  induction r with
  | zero => exact ⟨hS, rfl⟩
  | succ r ih =>
    obtain ⟨ih1, ih2⟩ := ih
    have hjj : nextKsaIndex (ksaRoundsTo len s r).2 (sRead (ksaRoundsTo len s r).1 (loopAddress r))
        (kRead (ksaRoundsTo len s r).1 (keyAddress r len)) = (Rc4.ksaRound key r (Rc4.ksaAfter key r)).2 := by
      rw [kRead_ksaRoundsTo, hK, ih1, ih2]
      rfl
    rw [ksaRoundsTo_succ]
    refine ⟨?_, hjj⟩
    simp only [ksaRound] at hjj ⊢
    rw [hjj, sRead_sSwap, ih1]
    rfl

/-- A key of at least 1 byte held in `K` is read by address form "loop index modulo key length" (R61). -/
theorem kRead_keyAddress_heldKey {s : State} (h1 : 1 ≤ s.KLEN.toNat) (ii : Nat) :
    kRead s (keyAddress ii s.KLEN.toNat) = Rc4.keyByte (heldKey s) ii := by
  have hlt : ii % s.KLEN.toNat < s.KLEN.toNat := Nat.mod_lt _ (by omega)
  have hlen : (heldKey s).length = s.KLEN.toNat := by simp [heldKey]
  rw [Rc4.keyByte, hlen, keyAddress]
  simp [heldKey, List.getD, List.getElem?_map, List.getElem?_range hlt]

/-- The schedule a `KSA` runs: `S` reads as `ksa` of the key held, and nothing but `S` has changed (R57, R59). -/
theorem ksaRounds_ksaIdentity {s : State} (h1 : 1 ≤ s.KLEN.toNat) :
    sRead (ksaRounds s.KLEN.toNat (ksaIdentity s)).1 = Rc4.ksa (heldKey s) := by
  have := ksaRoundsTo_refines (len := s.KLEN.toNat) (s := ksaIdentity s) (key := heldKey s)
    (sRead_ksaIdentity s) (fun ii => by rw [kRead_ksaIdentity]; exact kRead_keyAddress_heldKey h1 ii) 256
  exact this.1

theorem ksaSchedule_eq (len : Nat) (s : State) :
    (ksaRounds len (ksaIdentity s)).1 = { s with S := (ksaRounds len (ksaIdentity s)).1.S } :=
  onlyS_trans (ksaIdentity_eq s) (ksaRoundsTo_fst_eq len _ 256)

/-- `u` is the state in which the schedule on the key that `s` holds leaves the engine: all that a proof needs of it, so
that none need hold the 256 rounds as a term. -/
structure ScheduleOf (s u : State) : Prop where
  writes : u = { s with S := u.S }
  result : sRead u = Rc4.ksa (heldKey s)
  stored : ∀ x : Byte, (u.S.read? x.toNat).isSome = true
  wf : s.S.wf = true → u.S.wf = true

theorem scheduleOf_ksaRounds {s : State} (h1 : 1 ≤ s.KLEN.toNat) :
    ScheduleOf s (ksaRounds s.KLEN.toNat (ksaIdentity s)).1 where
  writes := ksaSchedule_eq _ s
  result := ksaRounds_ksaIdentity h1
  stored := fun _ => isSome_read?_ksaRoundsTo _ 256 (by simp [read?_ksaIdentity])
  wf := fun h => wf_ksaRoundsTo _ 256 (wf_ksaIdentity h)

namespace ScheduleOf

variable {s u : State} (h : ScheduleOf s u)

include h

theorem K : u.K = s.K := by
  rw [h.writes]

theorem commands : u.commands = s.commands := by
  rw [h.writes]

theorem responses : u.responses = s.responses := by
  rw [h.writes]

theorem freeIndex : u.freeIndex = s.freeIndex := by
  rw [h.writes]

/-- What `KSA` leaves in the engine after the schedule (R57). -/
theorem enterRun_eq : enterRun u =
    { s with S := u.S, i := 0, j := 0, K := [], KLEN := 0, KOVF := false, PHASE := .phRun } := by
  rw [h.writes]
  rfl

/-- Clearing the key and entering `PH_RUN` leave `S` as the schedule left it. -/
theorem sRead_enterRun : sRead (enterRun u) = Rc4.ksa (heldKey s) := by
  rw [← h.result]
  exact sRead_congr rfl rfl

end ScheduleOf

end Sys2Proof.Machine
end

