-- ==== Sys2Proof/Laws/PerInstr.lean ====
section
/-! SUPPORT. The encoding of each command, one lemma for each constructor of Instr. -/

namespace Sys2Proof.Laws.EncodingSelectsRow

/-- The command is well formed and its word has the bits that its row of the opcode map fixes (R43). -/
def Statement (c : Instr) : Prop := c.wellFormed = true ∧ (rowOf c).selects (encode c) = true

theorem keyb (imm8 : Byte) : Statement (.keyb imm8) := by
  refine ⟨decide_eq_true imm8.isLt, ?_⟩
  have h : ∀ b : Byte, (rowOf (.keyb b)).selects (encode (.keyb b)) = true := by decide
  exact h imm8

theorem ksa : Statement .ksa := ⟨rfl, by decide⟩

theorem xorb (imm8 : Byte) : Statement (.xorb imm8) := by
  refine ⟨decide_eq_true imm8.isLt, ?_⟩
  have h : ∀ b : Byte, (rowOf (.xorb b)).selects (encode (.xorb b)) = true := by decide
  exact h imm8

theorem endInvocation : Statement .endInvocation := ⟨rfl, by decide⟩

end Sys2Proof.Laws.EncodingSelectsRow
end

