-- ==== Sys2Proof/Laws/Prga.lean ====
section
/-! SUPPORT. The generator: the round an `XORB` makes on the engine's state is `prga_round` of the context it holds. -/

namespace Sys2Proof.Machine

/-- A round writes `S`, `i`, `j` and nothing else (R64). -/
theorem xorbWrites_eq (s : State) :
    xorbWrites s = { s with S := (xorbWrites s).S, i := (xorbWrites s).i, j := (xorbWrites s).j } := rfl

theorem xorbWrites_i (s : State) : (xorbWrites s).i = nextI s.i := rfl

theorem xorbWrites_j (s : State) : (xorbWrites s).j = nextJ s.j (sRead s (nextI s.i)) := rfl

theorem sRead_xorbWrites (s : State) :
    sRead (xorbWrites s) = Rc4.exchange (sRead s) (xorbWrites s).i (xorbWrites s).j := by
  simp only [xorbWrites, sRead_sSwap]
  rfl

/-- The context after the writes of `XORB` is that of `prga_round` (R63, R64). -/
theorem contextOf_xorbWrites (s : State) : contextOf (xorbWrites s) = (Rc4.prgaRound (contextOf s)).1 := by
  simp only [contextOf, sRead_xorbWrites]
  rfl

/-- The keystream byte an `XORB` draws is that of `prga_round` (R63, R64). -/
theorem keystreamByte_xorbWrites (s : State) :
    keystreamByte (xorbWrites s) = (Rc4.prgaRound (contextOf s)).2 := by
  simp only [keystreamByte, sRead_xorbWrites]
  rfl

theorem isSome_read?_xorbWrites {s : State} {x : Byte} (h : (s.S.read? x.toNat).isSome = true) :
    ((xorbWrites s).S.read? x.toNat).isSome = true :=
  isSome_read?_sSwap (s := advanceJ (advanceI s)) _ _ h

theorem wf_xorbWrites {s : State} (h : s.S.wf = true) : (xorbWrites s).S.wf = true :=
  wf_sSwap (s := advanceJ (advanceI s)) _ _ h

end Sys2Proof.Machine
end

