-- ==== Sys2Proof/Laws/Step.lean ====
section
/-! SUPPORT. What a command and what a step can do, each case with its condition, so that no proof need unfold a meaning. -/

namespace Sys2Proof.Machine

theorem exec_keyb_store {b : Byte} {s : State} (hp : s.PHASE = .phKey) (hr : keyHasRoom s.KLEN = true) :
    exec (.keyb b) s = complete .ok (appendKeyByte b s) := by
  simp [exec, execKeyb, inPhase, hp, hr, operand]

theorem exec_keyb_overflow {b : Byte} {s : State} (hp : s.PHASE = .phKey) (hr : keyHasRoom s.KLEN = false) :
    exec (.keyb b) s = complete .ok (setOverflow s) := by
  simp [exec, execKeyb, inPhase, hp, hr]

theorem exec_ksa_invalid {s : State} (hp : s.PHASE = .phKey) (hk : keyInvalid s.KLEN s.KOVF = true) :
    exec .ksa s = raise .invalidKey s := by
  simp [exec, execKsa, inPhase, hp, hk]

theorem exec_ksa_rounds {s : State} (hp : s.PHASE = .phKey) (hk : keyInvalid s.KLEN s.KOVF = false) :
    exec .ksa s = complete .ok (enterRun (ksaRounds s.KLEN.toNat (ksaIdentity s)).1) := by
  simp [exec, execKsa, inPhase, hp, hk]

/-- `KSA` on a valid key, the schedule by what it does (R57, R59). -/
theorem exec_ksa_build {s : State} (hp : s.PHASE = .phKey) (hk : keyInvalid s.KLEN s.KOVF = false) :
    ∃ u, ScheduleOf s u ∧ exec .ksa s = complete .ok (enterRun u) := by
  exact ⟨_, scheduleOf_ksaRounds (keyInvalid_false.1 hk).1, exec_ksa_rounds hp hk⟩

theorem exec_xorb_run {b : Byte} {s : State} (hp : s.PHASE = .phRun) :
    exec (.xorb b) s = complete (.data (b ^^^ keystreamByte (xorbWrites s))) (xorbWrites s) := by
  simp [exec, execXorb, inPhase, hp, operand, xorByte]

theorem exec_end (s : State) : exec .endInvocation s = complete .ok (endWrites s) := rfl

/-- A command not accepted in the phase raises `SequenceError` (R72, R87). -/
theorem exec_refused {c : Instr} {s : State} (h : accepts s.PHASE c = false) :
    exec c s = raise .sequenceError s := by
  cases c <;> cases hp : s.PHASE <;> simp [accepts, hp] at h <;>
    simp [exec, execKeyb, execKsa, execXorb, inPhase, hp]

/-- Everything a command can do. -/
inductive ExecCase (s : State) : Instr → Host.Outcome State Fault Refusal → Prop where
  | refused {c : Instr} (h : accepts s.PHASE c = false) : ExecCase s c (raise .sequenceError s)
  | store (b : Byte) (hp : s.PHASE = .phKey) (hr : keyHasRoom s.KLEN = true) :
      ExecCase s (.keyb b) (complete .ok (appendKeyByte b s))
  | overflow (b : Byte) (hp : s.PHASE = .phKey) (hr : keyHasRoom s.KLEN = false) :
      ExecCase s (.keyb b) (complete .ok (setOverflow s))
  | invalidKey (hp : s.PHASE = .phKey) (hk : keyInvalid s.KLEN s.KOVF = true) :
      ExecCase s .ksa (raise .invalidKey s)
  | build (hp : s.PHASE = .phKey) (hk : keyInvalid s.KLEN s.KOVF = false) (u : State) (hu : ScheduleOf s u) :
      ExecCase s .ksa (complete .ok (enterRun u))
  | round (b : Byte) (hp : s.PHASE = .phRun) :
      ExecCase s (.xorb b) (complete (.data (b ^^^ keystreamByte (xorbWrites s))) (xorbWrites s))
  | finish : ExecCase s .endInvocation (complete .ok (endWrites s))

/-- The inversion lemma of exec: one of the seven cases holds. -/
theorem exec_cases (c : Instr) (s : State) : ExecCase s c (exec c s) := by
  by_cases h : accepts s.PHASE c = false
  · rw [exec_refused h]
    exact .refused h
  · cases c with
    | keyb b =>
      have hp : s.PHASE = .phKey := by
        cases hp : s.PHASE <;> simp [accepts, hp] at h ⊢
      cases hr : keyHasRoom s.KLEN with
      | true => rw [exec_keyb_store hp hr]; exact .store b hp hr
      | false => rw [exec_keyb_overflow hp hr]; exact .overflow b hp hr
    | ksa =>
      have hp : s.PHASE = .phKey := by
        cases hp : s.PHASE <;> simp [accepts, hp] at h ⊢
      cases hk : keyInvalid s.KLEN s.KOVF with
      | true => rw [exec_ksa_invalid hp hk]; exact .invalidKey hp hk
      | false =>
        obtain ⟨u, hu, he⟩ := exec_ksa_build hp hk
        rw [he]
        exact .build hp hk u hu
    | xorb b =>
      have hp : s.PHASE = .phRun := by
        cases hp : s.PHASE <;> simp [accepts, hp] at h ⊢
      rw [exec_xorb_run hp]
      exact .round b hp
    | endInvocation => exact .finish

/-- The state after taking one event. -/
def taken (s : State) (rest : List HostEvent) : State := { s with commands := rest, freeIndex := s.freeIndex + 1 }

theorem takeEvent_cons {s : State} {e : HostEvent} {rest : List HostEvent} (h : s.commands = e :: rest) :
    takeEvent s = some (e, taken s rest) := by
  simp [takeEvent, h, taken]

theorem step_idle {s : State} (h : s.commands = []) : step s = .next s := by
  simp [step, takeEvent, h]

theorem step_reset {s : State} {rest : List HostEvent} (h : s.commands = .reset :: rest) :
    step s = .next (resetEvent (taken s rest)) := by
  simp [step, takeEvent_cons h]

theorem step_word {s : State} {w : Word} {rest : List HostEvent} (h : s.commands = .command w :: rest) :
    step s = performWord w (taken s rest) := by
  simp [step, takeEvent_cons h]

theorem performWord_command {w : Word} {c : Instr} (h : decode w = .command c) (s : State) :
    performWord w s = exec c s := by
  simp [performWord, h]

theorem performWord_illegal {w : Word} (h : decode w = .illegal) (s : State) :
    performWord w s = raise .illegalCommand s := by
  simp [performWord, h]

/-- Everything a step can do. -/
inductive StepCase (s : State) : Host.Outcome State Fault Refusal → Prop where
  | idle (h : s.commands = []) : StepCase s (.next s)
  | reset (rest : List HostEvent) (h : s.commands = .reset :: rest) :
      StepCase s (.next (resetEvent (taken s rest)))
  | command (w : Word) (c : Instr) (rest : List HostEvent) (h : s.commands = .command w :: rest)
      (hw : decode w = .command c) : StepCase s (exec c (taken s rest))
  | illegal (w : Word) (rest : List HostEvent) (h : s.commands = .command w :: rest)
      (hw : decode w = .illegal) : StepCase s (raise .illegalCommand (taken s rest))

/-- The inversion lemma of step: one of the four cases holds. -/
theorem step_cases (s : State) : StepCase s (step s) := by
  match h : s.commands with
  | [] => rw [step_idle h]; exact .idle h
  | .reset :: rest => rw [step_reset h]; exact .reset rest h
  | .command w :: rest =>
    rw [step_word h]
    match hw : decode w with
    | .command c => rw [performWord_command hw]; exact .command w c rest h hw
    | .illegal => rw [performWord_illegal hw]; exact .illegal w rest h hw

end Sys2Proof.Machine
end

