-- ==== Sys2Proof/Laws/Run.lean ====
section
/-! SUPPORT. Runs of host events. No step stops; what an event does depends on the pending events in nothing, so a run of
events is a fold of `performed`, one event after another. -/

namespace Sys2Proof.Machine

/-- Every command answers with a next state (R9, R110). -/
theorem exec_next (c : Instr) (s : State) : ∃ t, exec c s = .next t := by
  have h := exec_cases c s
  generalize exec c s = o at h ⊢
  cases h <;> exact ⟨_, rfl⟩

/-- The state a command leaves. -/
def execState (c : Instr) (s : State) : State :=
  match exec c s with
  | .next t => t
  | .fault _ => s
  | .refused _ => s

theorem exec_eq (c : Instr) (s : State) : exec c s = .next (execState c s) := by
  obtain ⟨t, ht⟩ := exec_next c s
  simp [execState, ht]

theorem execState_eq {c : Instr} {s t : State} (h : exec c s = .next t) : execState c s = t := by
  simp [execState, h]

/-- The state with other pending events. -/
def withPending (q : List HostEvent) (s : State) : State := { s with commands := q }

@[simp] theorem withPending_commands (q : List HostEvent) (s : State) : (withPending q s).commands = q := rfl

@[simp] theorem withPending_withPending (q r : List HostEvent) (s : State) :
    withPending q (withPending r s) = withPending q s := rfl

theorem withPending_self {q : List HostEvent} {s : State} (h : s.commands = q) : withPending q s = s := by
  subst h
  rfl

/-- The identity pass reads and writes nothing of the pending events. -/
theorem ksaIdentity_withPending (q : List HostEvent) (s : State) :
    ksaIdentity (withPending q s) = withPending q (ksaIdentity s) := by
  unfold ksaIdentity
  generalize List.range 256 = l
  induction l generalizing s with
  | nil => rfl
  | cons a l ih => exact ih (sWrite (loopAddress a) (loopAddress a) s)

/-- Nor do the rounds of the key schedule. -/
theorem ksaRounds_withPending (q : List HostEvent) (len : Nat) (s : State) :
    (ksaRounds len (withPending q s)).1 = withPending q (ksaRounds len s).1 := by
  unfold ksaRounds
  generalize List.range 256 = l
  generalize (0 : Byte) = jj
  induction l generalizing s jj with
  | nil => rfl
  | cons a l ih => exact ih (ksaRound len (s, jj) a).1 (ksaRound len (s, jj) a).2

theorem enterRun_withPending (q : List HostEvent) (s : State) :
    enterRun (withPending q s) = withPending q (enterRun s) := rfl

theorem respond_withPending (r : Response) (q : List HostEvent) (s : State) :
    respond r (withPending q s) = withPending q (respond r s) := rfl

theorem buildResult_withPending (q : List HostEvent) (len : Nat) (s : State) :
    respond .ok (enterRun (ksaRounds len (ksaIdentity (withPending q s))).1)
      = withPending q (respond .ok (enterRun (ksaRounds len (ksaIdentity s)).1)) := by
  rw [ksaIdentity_withPending, ksaRounds_withPending, enterRun_withPending, respond_withPending]

/-- Two answers that agree but for the pending events. -/
theorem execState_withPending_of {c : Instr} {s t u : State} {q : List HostEvent} (h : exec c s = .next t)
    (hq : exec c (withPending q s) = .next u) (htu : u = withPending q t) :
    execState c (withPending q s) = withPending q (execState c s) := by
  rw [execState_eq h, execState_eq hq, htu]

/-- A command reads and writes nothing of the pending events. -/
theorem execState_withPending (c : Instr) (s : State) (q : List HostEvent) :
    execState c (withPending q s) = withPending q (execState c s) := by
  by_cases h : accepts s.PHASE c = false
  · exact execState_withPending_of (exec_refused h) (exec_refused (s := withPending q s) h) rfl
  · cases c with
    | keyb b =>
      have hp : s.PHASE = .phKey := by cases hp : s.PHASE <;> simp [accepts, hp] at h ⊢
      cases hr : keyHasRoom s.KLEN with
      | true =>
        exact execState_withPending_of (exec_keyb_store hp hr) (exec_keyb_store (s := withPending q s) hp hr) rfl
      | false =>
        exact execState_withPending_of (exec_keyb_overflow hp hr) (exec_keyb_overflow (s := withPending q s) hp hr) rfl
    | ksa =>
      have hp : s.PHASE = .phKey := by cases hp : s.PHASE <;> simp [accepts, hp] at h ⊢
      cases hk : keyInvalid s.KLEN s.KOVF with
      | true =>
        exact execState_withPending_of (exec_ksa_invalid hp hk) (exec_ksa_invalid (s := withPending q s) hp hk) rfl
      | false =>
        exact execState_withPending_of (exec_ksa_rounds hp hk) (exec_ksa_rounds (s := withPending q s) hp hk)
          (buildResult_withPending q _ s)
    | xorb b =>
      have hp : s.PHASE = .phRun := by cases hp : s.PHASE <;> simp [accepts, hp] at h ⊢
      exact execState_withPending_of (exec_xorb_run hp) (exec_xorb_run (s := withPending q s) hp) rfl
    | endInvocation => rfl

/-- The state with the counter of free values advanced, as taking an event does. -/
def counted (s : State) : State := { s with freeIndex := s.freeIndex + 1 }

/-- What one host event does to the engine, the pending events apart. -/
def performed (e : HostEvent) (s : State) : State :=
  match e with
  | .reset => resetEvent (counted s)
  | .command w =>
    match decode w with
    | .command c => execState c (counted s)
    | .illegal => respond (.error .illegalCommand) (counted s)

theorem performed_reset (s : State) : performed .reset s = resetEvent (counted s) := rfl

theorem performed_command {w : Word} {c : Instr} (h : decode w = .command c) (s : State) :
    performed (.command w) s = execState c (counted s) := by
  simp [performed, h]

theorem performed_illegal {w : Word} (h : decode w = .illegal) (s : State) :
    performed (.command w) s = respond (.error .illegalCommand) (counted s) := by
  simp [performed, h]

theorem performed_withPending (e : HostEvent) (s : State) (q : List HostEvent) :
    performed e (withPending q s) = withPending q (performed e s) := by
  cases e with
  | reset => rfl
  | command w =>
    cases hw : decode w with
    | illegal => simp only [performed_illegal hw]; rfl
    | command c =>
      rw [performed_command hw, performed_command hw]
      exact execState_withPending c (counted s) q

/-- A step takes the oldest pending event and performs it. -/
theorem step_performed {s : State} {e : HostEvent} {rest : List HostEvent} (h : s.commands = e :: rest) :
    step s = .next (withPending rest (performed e s)) := by
  have hs : taken s rest = withPending rest (counted s) := rfl
  cases e with
  | reset => rw [step_reset h]; rfl
  | command w =>
    rw [step_word h, hs]
    cases hw : decode w with
    | illegal => rw [performWord_illegal hw, performed_illegal hw]; rfl
    | command c => rw [performWord_command hw, exec_eq, execState_withPending, performed_command hw]

/-- The state after a list of events, the pending events apart. -/
def performedAll (es : List HostEvent) (s : State) : State := es.foldl (fun t e => performed e t) s

@[simp] theorem performedAll_nil (s : State) : performedAll [] s = s := rfl

@[simp] theorem performedAll_cons (e : HostEvent) (es : List HostEvent) (s : State) :
    performedAll (e :: es) s = performedAll es (performed e s) := rfl

theorem performedAll_append (es fs : List HostEvent) (s : State) :
    performedAll (es ++ fs) s = performedAll fs (performedAll es s) := by
  simp [performedAll, List.foldl_append]

theorem performedAll_withPending (es : List HostEvent) (s : State) (q : List HostEvent) :
    performedAll es (withPending q s) = withPending q (performedAll es s) := by
  induction es generalizing s with
  | nil => rfl
  | cons e es ih => rw [performedAll_cons, performed_withPending, ih, performedAll_cons]

theorem coreRun_succ_of_next (M : Host.Core) {s t : M.State} (h : M.step s = .next t) (n : Nat) :
    M.run (n + 1) s = M.run n t := by
  simp [Host.Core.run, h]

/-- One step of a run of the engine. -/
theorem run_succ_of_next {s t : State} (h : step s = .next t) (n : Nat) :
    Host.Core.run Sys2Proof.core (n + 1) s = Host.Core.run Sys2Proof.core n t :=
  coreRun_succ_of_next Sys2Proof.core h n

theorem run_pending (es q : List HostEvent) (s : State) :
    Host.Core.run Sys2Proof.core es.length (withPending (es ++ q) s) = .next (withPending q (performedAll es s)) := by
  induction es generalizing s with
  | nil => rfl
  | cons e es ih =>
    have h : step (withPending (e :: es ++ q) s)
        = .next (withPending (es ++ q) (performed e (withPending (e :: es ++ q) s))) := step_performed rfl
    rw [performed_withPending, withPending_withPending] at h
    rw [List.length_cons, run_succ_of_next h, ih, performedAll_cons]

/-- A run of host events, none pending before, performs them one after another, and none is pending after. -/
theorem runEvents_eq {s : State} (h : s.commands = []) (es : List HostEvent) :
    runEvents es s = .next (performedAll es s) := by
  have h' : issue es s = withPending (es ++ []) s := by simp [issue, h, withPending]
  have hq := performedAll_withPending es s []
  rw [withPending_self h] at hq
  rw [runEvents, h', run_pending, ← hq]
  rfl

theorem afterEvents_eq {s : State} (h : s.commands = []) (es : List HostEvent) :
    afterEvents es s = performedAll es s := by
  simp only [afterEvents, runEvents_eq h]

theorem commands_performedAll {s : State} (h : s.commands = []) (es : List HostEvent) :
    (performedAll es s).commands = [] := by
  have hq := performedAll_withPending es s []
  rw [withPending_self h] at hq
  rw [hq]
  rfl

/-- One event changes the pending events in nothing. -/
theorem commands_performed (e : HostEvent) (s : State) : (performed e s).commands = s.commands := by
  have hq := performed_withPending e s s.commands
  rw [withPending_self rfl] at hq
  rw [hq]
  rfl

end Sys2Proof.Machine
end

