-- ==== Sys2Proof/Tests/Slice0.lean ====
section
/-! SUPPORT. Tests: the smoke test of well-formedness, decoding of words written out from the spec's encodings, at most two
one-step tests for each command with the values of 95_test_vectors.md, and for each statement with hypotheses a witness
that they can be met. -/

namespace Sys2Proof.Tests

open Sys2Proof.Machine

/-! ### Well-formedness (R41, R45, R72) -/

theorem test_wellFormed_accepts_each_command :
    Instr.wellFormed (.keyb 0xFF) = true ∧ Instr.wellFormed .ksa = true ∧ Instr.wellFormed (.xorb 0x00) = true ∧
      Instr.wellFormed .endInvocation = true := by decide

theorem test_fields_accepts : CommandFields.wellFormed ⟨0x01, 0xFF⟩ = true ∧
    CommandFields.wellFormed ⟨0x02, 0x00⟩ = true ∧ CommandFields.wellFormed ⟨0x04, 0x00⟩ = true := by decide

theorem test_fields_refuses_opcode_zero : CommandFields.wellFormed ⟨0x00, 0x00⟩ = false := by decide

theorem test_fields_refuses_unassigned_opcode : CommandFields.wellFormed ⟨0x05, 0x00⟩ = false := by decide

theorem test_fields_refuses_ksa_with_operand : CommandFields.wellFormed ⟨0x02, 0x01⟩ = false := by decide

theorem test_fields_refuses_end_with_operand : CommandFields.wellFormed ⟨0x04, 0x01⟩ = false := by decide

theorem test_sequence_accepts :
    sequenceWellFormed (.offering 0) [.keyb 1, .ksa, .xorb 2, .endInvocation, .ksa, .endInvocation] = true := by decide

theorem test_sequence_refuses_xorb_before_ksa : sequenceWellFormed (.offering 0) [.keyb 1, .xorb 2] = false := by decide

theorem test_sequence_refuses_keyb_while_running : sequenceWellFormed .running [.xorb 1, .keyb 2] = false := by decide

theorem test_sequence_refuses_ksa_while_running : sequenceWellFormed .running [.ksa] = false := by decide

theorem test_sequence_refuses_xorb_after_empty_key : sequenceWellFormed (.offering 0) [.ksa, .xorb 0] = false := by decide

/-! ### Decoding: bits 15..8 the opcode, bits 7..0 the operand (R41, R43; 95_test_vectors.md section 2.5) -/

theorem test_decode_keyb : decode 0b0000000101001011#16 = .command (.keyb 0b01001011#8) := by decide

theorem test_decode_ksa : decode 0b0000001000000000#16 = .command .ksa := by decide

theorem test_decode_xorb : decode 0b0000001101010000#16 = .command (.xorb 0b01010000#8) := by decide

theorem test_decode_end : decode 0b0000010000000000#16 = .command .endInvocation := by decide

theorem test_decode_illegal : decode 0b0000001000000001#16 = .illegal ∧ decode 0x0000#16 = .illegal ∧
    decode 0x8100#16 = .illegal ∧ decode 0xFFFF#16 = .illegal := by decide

theorem test_decodeTableWord : decodeTableWord 16 0x014B = some (.keyb 0x4B) ∧ decodeTableWord 16 0x0401 = none := by decide

/-- The example of R52. -/
theorem test_assemble_key_string :
    Asm.assembleLine ['K', 'E', 'Y', ' ', Char.ofNat 34, 'K', 'e', 'y', Char.ofNat 34] = some [0x014B, 0x0165, 0x0179] := by
  decide

/-- R51: a decimal operand, a comment, a blank line; R54: a raw word. -/
theorem test_assemble_text :
    Asm.assembleText (['K', 'E', 'Y', 'B', ' ', '7', '5', ' ', ';', 'x', Char.ofNat 10, Char.ofNat 10] ++
      ['.', 'w', 'o', 'r', 'd', ' ', '0', 'x', '0', '2', '0', '1']) = some [0x014B, 0x0201] := by
  decide

/-- R52: a string of ASCII characters that are not printable (9, 1, 127), and one of a character that is not ASCII. -/
theorem test_assemble_string_not_printable :
    Asm.assembleLine ['K', 'E', 'Y', ' ', Char.ofNat 34, Char.ofNat 9, Char.ofNat 1, Char.ofNat 127, Char.ofNat 34]
      = some [0x0109, 0x0101, 0x017F] ∧
    Asm.assembleLine ['K', 'E', 'Y', ' ', Char.ofNat 34, Char.ofNat 128, Char.ofNat 34] = none := by decide

/-- The form of R53. -/
theorem test_byteStringText : Asm.byteStringText [0xBB, 0xF3, 0x16] = ['B', 'B', ' ', 'F', '3', ' ', '1', '6'] := by decide

/-! ### One step of each command -/

/-- What a step answers, by a function of the next state. -/
def stepGives {α : Type} (f : State → α) (s : State) : Option α :=
  match step s with
  | .next t => some (f t)
  | .fault _ => none
  | .refused _ => none

/-- The state with one command word pending. -/
def pending (w : Nat) (s : State) : State := s.withFetchWord 16 w

/-- A state in `PH_KEY` with the key bytes held, and `KLEN` and `KOVF` as given. -/
def offered (key : List Byte) (klen : KeyLength) (kovf : Bool) : State :=
  { State.reset with K := key.mapIdx fun a b => (a, b), KLEN := klen, KOVF := kovf }

/-- A state in `PH_RUN`. -/
def running (S : Memory) (i j : Byte) : State := { State.reset with S := S, i := i, j := j, PHASE := .phRun }

/-- R56, example. -/
theorem test_keyb_stores_and_counts :
    stepGives (fun t => (t.K, t.KLEN, t.KOVF, t.responses)) (pending 0x0165 (offered [0x4B] 1 false))
      = some ([(0, 0x4B), (1, 0x65)], 2, false, [0x0000]) := by decide

/-- K4: the 257th key byte is not stored and is answered `OK`. -/
theorem test_keyb_full_sets_overflow :
    stepGives (fun t => (t.K, t.KLEN, t.KOVF, t.responses)) (pending 0x01AA (offered [] 256 false))
      = some ([], 256, true, [0x0000]) := by decide

/-- K7: a key too long is refused. -/
theorem test_ksa_refuses_long_key :
    stepGives (fun t => (t.PHASE, t.KLEN, t.KOVF, t.responses)) (pending 0x0200 (offered [] 256 true))
      = some (.phKey, 0, false, [0x0200]) := by decide

/-- The first four rounds of the schedule for the key "Key" (95_test_vectors.md section 2.1), on the entries of the
identity that they touch. -/
theorem test_ksa_rounds :
    ((List.range 4).foldl (ksaRound 3)
        ({ offered [0x4B, 0x65, 0x79] 3 false with
            S := [(0, 0), (1, 1), (2, 2), (3, 3), (44, 44), (75, 75), (122, 122), (177, 177)] }, 0)).1.S
      = [(0, 0x4B), (1, 0xB1), (2, 0x2C), (3, 0x7A), (44, 0x02), (75, 0x00), (122, 0x03), (177, 0x01)] := by decide

/-- 95_test_vectors.md section 2.2, key "Key", position 0: `j` takes `S[i]` before the swap. -/
theorem test_xorb_first_round :
    stepGives (fun t => (t.S, t.i, t.j, t.responses)) (pending 0x0350 (running [(1, 0x33), (51, 0x4E), (129, 0xEB)] 0 0))
      = some ([(1, 0x4E), (51, 0x33), (129, 0xEB)], 1, 51, [0x01BB]) := by decide

/-- 95_test_vectors.md section 2.4, case (c): `t = j`, so the lookup must read the entry after the swap. -/
theorem test_xorb_lookup_after_swap :
    stepGives (fun t => (t.i, t.j, t.responses)) (pending 0x0300 (running [(49, 0x5E), (253, 0xD3)] 252 94))
      = some (253, 49, [0x01D3]) := by decide

/-- E7: `END` in `PH_RUN`. -/
theorem test_end_in_run :
    stepGives (fun t => (t.PHASE, t.S, t.responses)) (pending 0x0400 (running [(1, 0x33)] 1 2))
      = some (.phKey, [], [0x0000]) := by decide

/-- K12: `END` in `PH_KEY` drops the key. -/
theorem test_end_drops_key :
    stepGives (fun t => (t.KLEN, t.KOVF, t.responses)) (pending 0x0400 (offered [0xAA] 256 true))
      = some (0, false, [0x0000]) := by decide

/-- E1, E3 and E4: refused commands; P5: an illegal word. -/
theorem test_errors :
    stepGives State.responses (pending 0x0300 State.reset) = some [0x0300] ∧
    stepGives State.responses (pending 0x0102 (running [] 0 0)) = some [0x0300] ∧
    stepGives State.responses (pending 0x0200 (running [] 0 0)) = some [0x0300] ∧
    stepGives State.responses (pending 0x0201 State.reset) = some [0x0400] := by decide

/-! ### Witnesses that the hypotheses of the statements can be met -/

/-- A state put in `PH_RUN`. -/
def inRun (s : State) : State := { s with PHASE := .phRun }

/-- A state with one command word pending. -/
def issuing (w : Word) (s : State) : State := { s with commands := [.command w] }

/-- A state with another key buffer. -/
def withKeyBuffer (K : Memory) (s : State) : State := { s with K := K }

/-- A state in `PH_RUN` in which `S` is the identity (the state of the second table of 95_test_vectors.md section 2.2). -/
def identityRun : State := inRun (ksaIdentity State.reset)

theorem inRun_eq {u : State} (h : u = { State.reset with S := u.S }) : inRun u = running u.S 0 0 := by
  rw [h]
  rfl

theorem identityRun_eq : ∃ S, identityRun = running S 0 0 ∧ S.wf = true ∧ ∀ a : Byte, S.read? a.toNat = some a :=
  ⟨_, inRun_eq (ksaIdentity_eq State.reset), wf_ksaIdentity (s := State.reset) (by decide), read?_ksaIdentity State.reset⟩

theorem identityRun_commands : identityRun.commands = [] := by
  obtain ⟨S, h, _, _⟩ := identityRun_eq
  rw [h]
  rfl

theorem identityRun_PHASE : identityRun.PHASE = .phRun := by
  obtain ⟨S, h, _, _⟩ := identityRun_eq
  rw [h]
  rfl

theorem identityRun_i : identityRun.i = 0 := by
  obtain ⟨S, h, _, _⟩ := identityRun_eq
  rw [h]
  rfl

theorem identityRun_KLEN : identityRun.KLEN = 0 := by
  obtain ⟨S, h, _, _⟩ := identityRun_eq
  rw [h]
  rfl

theorem identityRun_KOVF : identityRun.KOVF = false := by
  obtain ⟨S, h, _, _⟩ := identityRun_eq
  rw [h]
  rfl

theorem identityRun_K : identityRun.K = [] := by
  obtain ⟨S, h, _, _⟩ := identityRun_eq
  rw [h]
  rfl

theorem identityRun_S (a : Byte) : identityRun.S.read? a.toNat = some a := by
  obtain ⟨S, h, _, hS⟩ := identityRun_eq
  rw [h]
  exact hS a

theorem sRead_identityRun : sRead identityRun = Rc4.identity := by
  funext a
  exact sRead_of_read? (identityRun_S a)

theorem keyIsStored_of_KLEN_zero {s : State} (h : s.KLEN = 0) : keyIsStored s := by
  intro a ha
  simp [h] at ha

theorem controlInvariant_of_cleared {s : State} (hk : s.KLEN = 0) (ho : s.KOVF = false) : controlInvariant s :=
  ⟨by simp [hk], by simp [ho], fun _ => ⟨by simp [hk], ho⟩⟩

theorem sRead_issuing (w : Word) (s : State) : sRead (issuing w s) = sRead s := sRead_congr rfl rfl

theorem step_issuing (w : Word) (s : State) :
    step (issuing w s) = .next (withPending [] (performed (.command w) (issuing w s))) := step_performed rfl

theorem test_witness_identityRun_inv (w : Word) : Inv (issuing w identityRun) := by
  obtain ⟨S, h, hwf, hS⟩ := identityRun_eq
  refine ⟨⟨?_, ?_, ?_⟩, fun _ => ⟨?_, ?_⟩, ?_, ?_, ?_⟩
  · rw [h]; simp [issuing, running, State.reset]
  · rw [h]; simp [issuing, running, State.reset]
  · rw [h]; simp [issuing, running, State.reset]
  · rw [h]; simp [issuing, running, hS]
  · rw [sRead_issuing, sRead_identityRun]
    exact Function.bijective_id
  · rw [h]; exact keyIsStored_of_KLEN_zero rfl
  · rw [h]; exact hwf
  · rw [h]; rfl

theorem test_witness_EveryStepKeepsTheInvariant :
    ∃ s t, Inv s ∧ s.commands = [.command 0x0350] ∧ step s = .next t :=
  ⟨_, _, test_witness_identityRun_inv 0x0350, rfl, step_issuing 0x0350 identityRun⟩

/-- Each clause at a word of its range, at the ends of the two operand ranges, and the words beside them. -/
theorem test_witness_DecodeIsTheTotalFunctionOfTheSpec :
    (BitVec.toNat (0x0100 : Word) / 256 = 0x01 ∧ BitVec.toNat (0x01FF : Word) / 256 = 0x01) ∧
    BitVec.toNat (0x0200 : Word) = 0x0200 ∧
    (BitVec.toNat (0x0300 : Word) / 256 = 0x03 ∧ BitVec.toNat (0x03FF : Word) / 256 = 0x03) ∧
    BitVec.toNat (0x0400 : Word) = 0x0400 ∧
    ([0x00FF, 0x0201, 0x02FF, 0x0401, 0xFFFF] : List Word).all (fun w =>
      decide (w.toNat / 256 ≠ 0x01 ∧ w.toNat ≠ 0x0200 ∧ w.toNat / 256 ≠ 0x03 ∧ w.toNat ≠ 0x0400)) = true ∧
    ((pending 0x0200 State.reset).commands = .command 0x0200 :: [] ∧ decode 0x0200 = .command .ksa) ∧
    ((pending 0x0201 State.reset).commands = .command 0x0201 :: [] ∧ decode 0x0201 = .illegal) := by decide

/-- The codes at the ends of ASCII, and those beside the line feed and the double quote. -/
theorem test_witness_PseudoInstructionsExpand :
    ∀ c ∈ [Char.ofNat 0, Char.ofNat 9, Char.ofNat 11, Char.ofNat 33, Char.ofNat 35, Char.ofNat 127],
      c.toNat < 128 ∧ c.toNat ≠ 34 ∧ c.toNat ≠ 10 := by
  simp only [List.forall_mem_cons]
  exact ⟨by decide, by decide, by decide, by decide, by decide, by decide, fun _ h => nomatch h⟩

theorem test_witness_DecodeAndEncodeAgree : Instr.wellFormed (.xorb 0xFF) = true := by decide

theorem test_witness_StepRunsTheDecodedCommand :
    (offered [] 0 false).withFetchWord 16 0x0200 = { State.reset with commands := [.command 0x0200] } ∧
    decode 0x0200 = .command .ksa ∧ Instr.wellFormed .ksa = true ∧ decodeTableWord 16 0x0200 = some .ksa := by decide

theorem test_witness_IllegalWordsWriteNoState :
    (pending 0x0201 State.reset).commands = .command 0x0201 :: [] ∧ decode 0x0201 = .illegal := by decide

theorem test_witness_IdleStepChangesNothing : State.reset.commands = [] := by decide

theorem test_witness_OneResponseForEachCommand :
    State.reset.commands = [] ∧ (∃ t, step State.reset = .next t) ∧
    (∃ t, step { State.reset with commands := [.reset] } = .next t) ∧
    ∃ t, step (pending 0x0400 State.reset) = .next t :=
  ⟨rfl, ⟨_, rfl⟩, ⟨_, rfl⟩, ⟨_, rfl⟩⟩

/-- A step that emits a `DATA` response: the last clause of the statement is not empty. -/
theorem test_witness_OnlyTheseResponseWords :
    stepGives (fun t => t.responses.drop 0) (pending 0x0350 (running [(1, 0x33), (51, 0x4E), (129, 0xEB)] 0 0))
      = some [0x01BB] := by decide

theorem test_witness_ResetEventMeetsTheRelation :
    ({ running [] 1 2 with commands := [.reset, .command 0x0200] } : State).commands = .reset :: [.command 0x0200] := rfl

theorem test_witness_ResetStatesAnswerAlike :
    startState State.reset ∧ startState { State.reset with i := 7, S := [(3, 9)] } ∧
      State.reset ≠ { State.reset with i := 7, S := [(3, 9)] } :=
  ⟨⟨⟨rfl, rfl, rfl⟩, rfl⟩, ⟨⟨rfl, rfl, rfl⟩, rfl⟩, by decide⟩

theorem test_witness_ArithmeticIsModulo256 :
    (1 ≤ 1 ∧ 1 ≤ 256 ∧ (keyAddress 255 1).toNat = 0) ∧ (1 ≤ 256 ∧ 256 ≤ 256 ∧ (keyAddress 255 256).toNat = 255) ∧
    (BitVec.toNat (255 : KeyLength) < 256 ∧ (nextKeyLength 255).toNat = 256) := by decide

theorem test_witness_KeybFollowsItsRule :
    (running [] 0 0).PHASE = .phRun ∧
    ((offered [] 255 false).PHASE = .phKey ∧ (offered [] 255 false).KLEN.toNat < 256) ∧
    ((offered [] 256 false).PHASE = .phKey ∧ 256 ≤ (offered [] 256 false).KLEN.toNat) := by decide

theorem test_witness_KsaFollowsItsRule :
    (running [] 0 0).PHASE = .phRun ∧
    ((offered [] 0 false).PHASE = .phKey ∧ (offered [] 0 false).KLEN.toNat = 0) ∧
    ((offered [] 256 true).PHASE = .phKey ∧ (offered [] 256 true).KOVF = true) ∧
    ((offered [9] 1 false).PHASE = .phKey ∧ 1 ≤ (offered [9] 1 false).KLEN.toNat ∧
      (offered [9] 1 false).KLEN.toNat ≤ 256 ∧ (offered [9] 1 false).KOVF = false) ∧
    ((offered [] 256 false).PHASE = .phKey ∧ 1 ≤ (offered [] 256 false).KLEN.toNat ∧
      (offered [] 256 false).KLEN.toNat ≤ 256 ∧ (offered [] 256 false).KOVF = false) := by decide

theorem controlInvariant_full (kovf : Bool) : controlInvariant (offered [] 256 kovf) :=
  ⟨Nat.le_refl 256, fun _ => rfl, fun h => by cases h⟩

theorem test_witness_InvalidKeyIsRaisedExactlyThen :
    (∃ t, exec .ksa State.reset = .next t ∧ t.responses = State.reset.responses ++ [0x0200]) ∧
    controlInvariant (offered [] 256 true) :=
  ⟨⟨_, exec_ksa_invalid rfl rfl, rfl⟩, controlInvariant_full true⟩

theorem test_witness_OnlyAFullKeybSetsOverflow :
    controlInvariant (pending 0x01AA (offered [] 256 false)) ∧ (pending 0x01AA (offered [] 256 false)).KOVF = false ∧
    ∃ t, step (pending 0x01AA (offered [] 256 false)) = .next t ∧ t.KOVF = true :=
  ⟨⟨by decide, fun _ => rfl, fun h => by cases h⟩, rfl, _, rfl, rfl⟩

theorem test_witness_StoredKeyBytesAreNeverChanged :
    stepGives (fun t => decide (0 < (offered [0x4B] 1 false).KLEN.toNat ∧ 0 < t.KLEN.toNat ∧ t.K.read? 0 = some 0x4B))
      (pending 0x0165 (offered [0x4B] 1 false)) = some true := by decide

theorem test_witness_KsaRoundFollowsItsRule :
    1 ≤ ([9] : List Byte).length ∧ ([9] : List Byte).length ≤ 256 ∧ 255 < 256 := by decide

theorem test_witness_EveryRoundKeepsAPermutation :
    Function.Bijective (⟨Rc4.identity, 0, 0⟩ : Rc4.Context).S := Function.bijective_id

theorem test_witness_AKeyWrittenTwiceGivesTheSameSchedule :
    (1 ≤ ([1, 2] : List Byte).length ∧ 2 * ([1, 2] : List Byte).length ≤ 256) ∧
    1 ≤ (List.replicate 128 (7 : Byte)).length ∧ 2 * (List.replicate 128 (7 : Byte)).length ≤ 256 := by
  simp only [List.length_replicate, List.length_cons, List.length_nil]
  omega

/-- The number of uses at a key length that does not divide 256: byte 0 of a 3-byte key is used 86 times. -/
theorem test_witness_KeyBytesAreUsedInTurn :
    1 ≤ 3 ∧ 3 ≤ 256 ∧ 0 < 3 ∧ (256 - 0 + (3 - 1)) / 3 = 86 ∧ 1 ≤ 256 ∧ 256 ≤ 256 ∧ 255 < 256 ∧
      (256 - 255 + (256 - 1)) / 256 = 1 := by decide

theorem test_witness_XorbFollowsItsRule : State.reset.PHASE = .phKey ∧ (running [] 255 0).PHASE = .phRun := by decide

/-- Both directions of the statement: `t = 1` for `i = 1`, `j = 0` of the identity; `t = 5` for `i = 2`, `j = 3`. -/
theorem test_witness_LookupMustFollowTheSwap :
    Function.Bijective Rc4.identity ∧ byteMod ((Rc4.identity 1).toNat + (Rc4.identity 0).toNat) = 1 ∧
      byteMod ((Rc4.identity 2).toNat + (Rc4.identity 3).toNat) = 5 :=
  ⟨Function.bijective_id, by decide, by decide⟩

theorem test_witness_KeystreamDoesNotReadTheData :
    (running [] 0 0).PHASE = .phRun ∧ ∃ t, exec (.xorb 0x00) (running [] 0 0) = .next t := ⟨rfl, _, rfl⟩

theorem test_witness_IndexCountsTheDataBytes :
    identityRun.PHASE = .phRun ∧ identityRun.commands = [] ∧ identityRun.i = 0 :=
  ⟨identityRun_PHASE, identityRun_commands, identityRun_i⟩

theorem test_witness_DeadMemoriesHoldNoValue :
    (∃ t, exec .endInvocation (running [(1, 2)] 0 0) = .next t) ∧
    (State.reset.PHASE = .phKey ∧ ∃ t, exec .ksa State.reset = .next t) ∧
    ∃ t, step { running [(1, 2)] 0 0 with commands := [.reset] } = .next t :=
  ⟨⟨_, rfl⟩, ⟨rfl, _, exec_ksa_invalid rfl rfl⟩, ⟨_, rfl⟩⟩

theorem test_witness_PhaseMovesOnlyAsTheTable :
    decode 0x0400 = .command .endInvocation ∧ decode 0x0200 = .command .ksa ∧
    (decode 0x0150 ≠ .command .endInvocation ∧ decode 0x0150 ≠ .command .ksa) ∧
    ((offered [9] 1 false).PHASE = .phKey ∧ 1 ≤ (offered [9] 1 false).KLEN.toNat ∧ (offered [9] 1 false).KOVF = false) ∧
    (∃ t, step (pending 0x0200 (offered [9] 1 false)) = .next t) ∧
    (∃ t, step (pending 0x0200 State.reset) = .next t) ∧
    (∃ t, step { running [] 0 0 with commands := [.reset] } = .next t) ∧
    ∃ t, step State.reset = .next t :=
  ⟨by decide, by decide, by decide, by decide, ⟨_, step_performed rfl⟩, ⟨_, step_performed rfl⟩, ⟨_, step_performed rfl⟩,
    ⟨_, step_idle rfl⟩⟩

theorem test_witness_SequenceErrorWritesNoState :
    (running [] 0 0).PHASE = .phRun ∧ State.reset.PHASE = .phKey ∧ ∃ t, exec .endInvocation State.reset = .next t :=
  ⟨rfl, rfl, _, rfl⟩

theorem test_witness_ErrorsAreCheckedInOrder :
    (pending 0x0200 (running [] 0 0)).commands = .command 0x0200 :: [] ∧ decode 0xFFFF = .illegal ∧
    (decode 0x0102 = .command (.keyb 2) ∧ (running [] 0 0).PHASE = .phRun) ∧
    (decode 0x0300 = .command (.xorb 0) ∧ State.reset.PHASE = .phKey) ∧
    (decode 0x0200 = .command .ksa ∧ State.reset.KLEN.toNat = 0 ∧ (offered [] 256 true).KOVF = true) := by decide

theorem test_witness_UnrefusedSequencesAreTheGrammar :
    (∃ t, exec (.xorb 0) State.reset = .next t ∧ t.responses = State.reset.responses ++ [0x0300]) ∧
    controlInvariant State.reset ∧ State.reset.commands = [] ∧ controlInvariant identityRun ∧ identityRun.commands = [] :=
  ⟨⟨_, rfl, rfl⟩, controlInvariant_of_cleared rfl rfl, rfl, controlInvariant_of_cleared identityRun_KLEN identityRun_KOVF,
    identityRun_commands⟩

/-- What two engines in `PH_RUN` that differ in the dead key buffer alone have in common. -/
theorem liveAgree_withKeyBuffer {s : State} (K : Memory) (hk : s.KLEN = 0) : liveAgree s (withKeyBuffer K s) :=
  ⟨rfl, rfl, rfl, fun a ha => by simp [hk] at ha, fun _ => ⟨fun _ => rfl, rfl, rfl⟩⟩

theorem liveIsStored_withKeyBuffer {s : State} (K : Memory) (hk : s.KLEN = 0)
    (hS : ∀ a : Byte, (s.S.read? a.toNat).isSome = true) : liveIsStored (withKeyBuffer K s) :=
  ⟨keyIsStored_of_KLEN_zero hk, fun _ => hS⟩

theorem withKeyBuffer_commands (K : Memory) (s : State) : (withKeyBuffer K s).commands = s.commands := (rfl)

theorem withKeyBuffer_ne {s : State} (hK : s.K = []) : s ≠ withKeyBuffer [(0, 7)] s := by
  intro h
  have hK' : s.K = [(0, 7)] := congrArg State.K h
  rw [hK] at hK'
  cases hK'

theorem test_witness_DeadStateNeverReachesAResponse :
    liveIsStored identityRun ∧ liveIsStored (withKeyBuffer [(0, 7)] identityRun) ∧
    liveAgree identityRun (withKeyBuffer [(0, 7)] identityRun) ∧ identityRun.commands = [] ∧
    (withKeyBuffer [(0, 7)] identityRun).commands = [] ∧ identityRun.PHASE = .phRun ∧ identityRun ≠ withKeyBuffer [(0, 7)] identityRun :=
  have hS : ∀ a : Byte, (identityRun.S.read? a.toNat).isSome = true := fun a => by rw [identityRun_S]; rfl
  ⟨⟨keyIsStored_of_KLEN_zero identityRun_KLEN, fun _ => hS⟩, liveIsStored_withKeyBuffer _ identityRun_KLEN hS,
    liveAgree_withKeyBuffer _ identityRun_KLEN, identityRun_commands,
    (withKeyBuffer_commands _ _).trans identityRun_commands, identityRun_PHASE, withKeyBuffer_ne identityRun_K⟩

theorem test_witness_EndLeavesNoTrace : identityRun.commands = [] ∧ identityRun.PHASE = .phRun :=
  ⟨identityRun_commands, identityRun_PHASE⟩

theorem test_witness_EnginesShareNothing :
    (0 : Nat) ≠ 1 ∧ ([State.reset, running [] 0 0] : System)[1]? = some (running [] 0 0) ∧
      System.start[0]? = some State.reset :=
  ⟨by decide, rfl, by simp [System.start, Config.nEngines, List.replicate_succ]⟩

/-- Keys of 1 and 256 bytes, and of 0 and 257, for the statements about `apply`. -/
theorem test_witness_key_lengths :
    (1 ≤ ([9] : List Byte).length ∧ ([9] : List Byte).length ≤ 256) ∧
    (1 ≤ (List.replicate 256 (0xAA : Byte)).length ∧ (List.replicate 256 (0xAA : Byte)).length ≤ 256) ∧
    ([] : List Byte).length = 0 ∧ 257 ≤ (List.replicate 257 (0xAA : Byte)).length := by
  simp only [List.length_replicate, List.length_cons, List.length_nil]
  exact ⟨⟨by omega, by omega⟩, ⟨by omega, by omega⟩, trivial, by omega⟩

theorem test_witness_OutputHasTheLengthOfTheInput :
    (∃ out, Rc4.apply [0x70] [0x57] = .ok out) ∧ identityRun.PHASE = .phRun ∧ identityRun.commands = [] :=
  ⟨⟨_, if_neg (by decide)⟩, identityRun_PHASE, identityRun_commands⟩

theorem test_witness_ChunkBoundariesChangeNothing : identityRun.commands = [] := identityRun_commands

theorem test_witness_HostSequenceComputesApply : startState State.reset ∧ startState { State.reset with j := 200 } :=
  ⟨⟨⟨rfl, rfl, rfl⟩, rfl⟩, ⟨⟨rfl, rfl, rfl⟩, rfl⟩⟩

end Sys2Proof.Tests
end

section
/-! Proofs of the statements of 00_scope.md: the step and the arithmetic. -/

namespace Sys2Proof.Machine

/-- A pending word that spells a command is performed as that command, decoding first (R9, R44). -/
theorem step_command {s : State} {w : Word} {rest : List HostEvent} {c : Instr}
    (h : s.commands = .command w :: rest) (hw : decode w = .command c) : step s = exec c (taken s rest) := by
  rw [step_word h, performWord_command hw]

theorem decode_tableWord {nbits n : Nat} {c : Instr} (h : decodeTableWord nbits n = some c) :
    decode (tableWord nbits n) = .command c := by
  unfold decodeTableWord at h
  split at h
  · cases hw : decode (tableWord nbits n) with
    | command i => simpa [hw] using h
    | illegal => simp [hw] at h
  · cases h

/-- The event taken is the one just placed, so what was pending before is pending again. -/
theorem taken_withFetchWord (s : State) (nbits n : Nat) :
    taken (s.withFetchWord nbits n) s.commands = { s with freeIndex := s.freeIndex + 1 } := rfl

theorem nextKsaIndex_toNat (jj sii key : Byte) :
    (nextKsaIndex jj sii key).toNat = (jj.toNat + sii.toNat + key.toNat) % 256 := byteMod_toNat _

theorem nextKsaIndex_comm (jj sii key : Byte) : nextKsaIndex jj sii key = nextKsaIndex sii jj key := by
  rw [nextKsaIndex_eq, nextKsaIndex_eq, BitVec.add_comm jj sii]

theorem nextKsaIndex_right_comm (jj sii key : Byte) : nextKsaIndex jj sii key = nextKsaIndex jj key sii := by
  rw [nextKsaIndex_eq, nextKsaIndex_eq, BitVec.add_assoc, BitVec.add_comm sii, ← BitVec.add_assoc]

theorem nextI_toNat (i : Byte) : (nextI i).toNat = (i.toNat + 1) % 256 := byteMod_toNat _

theorem nextJ_toNat (j si : Byte) : (nextJ j si).toNat = (j.toNat + si.toNat) % 256 := byteMod_toNat _

theorem sumAddress_toNat (si sj : Byte) : (sumAddress si sj).toNat = (si.toNat + sj.toNat) % 256 := byteMod_toNat _

theorem sumAddress_comm (si sj : Byte) : sumAddress si sj = sumAddress sj si := by
  rw [sumAddress_eq, sumAddress_eq, BitVec.add_comm]

/-- A remainder by a key length of the engine is below 256, so the byte holds it without wrapping (R27, R112 (e)). -/
theorem keyAddress_toNat {len : Nat} (h1 : 1 ≤ len) (h256 : len ≤ 256) (ii : Nat) :
    (keyAddress ii len).toNat = ii % len :=
  byteMod_toNat_of_lt ((Nat.mod_lt ii h1).trans_le h256)

theorem xorByte_zero (x : Byte) : xorByte x 0 = x := BitVec.xor_zero

theorem xorByte_self (x : Byte) : xorByte x x = 0 := BitVec.xor_self

/-- A byte xored twice with the same keystream byte is the byte again (R112 (f)). -/
theorem xorByte_xorByte_cancel (x y : Byte) : xorByte (xorByte x y) y = x := by
  simp only [xorByte, BitVec.xor_assoc, BitVec.xor_self, BitVec.xor_zero]

/-- Settles O11: a pending event is performed, and with none pending the engine stays where it is. -/
theorem everyStepAnswersANextState : Obligations.EveryStepAnswersANextState := by
  refine ⟨fun s => ?_, exec_next⟩
  cases h : s.commands with
  | nil => exact ⟨s, step_idle h⟩
  | cons e rest => exact ⟨_, step_performed h⟩

/-- Settles O19, one law of R112 after another. -/
theorem arithmeticIsModulo256 : Obligations.ArithmeticIsModulo256 :=
  ⟨fun a b c => ⟨nextKsaIndex_toNat a b c, nextKsaIndex_comm a b c, nextKsaIndex_right_comm a b c⟩,
    nextI_toNat, nextI_eq 255, nextJ_toNat,
    fun u v => ⟨sumAddress_toNat u v, sumAddress_comm u v⟩,
    fun ii _ h1 h256 => ⟨keyAddress_toNat h1 h256 ii, fun hlt =>
      (keyAddress_toNat h1 h256 ii).trans (Nat.mod_eq_of_lt hlt)⟩,
    fun _ h => nextKeyLength_toNat (keyHasRoom_true.2 h),
    fun x y => ⟨xorByte_zero x, xorByte_self x, xorByte_xorByte_cancel x y⟩⟩

/-- Settles O8: the pending word is decoded and performed, and a word just placed is the pending one. -/
theorem stepRunsTheDecodedCommand : Obligations.StepRunsTheDecodedCommand := by
  refine ⟨fun s w rest c h hw _ => step_command h hw, fun s nbits n c h => ?_⟩
  have hp : (s.withFetchWord nbits n).commands = .command (tableWord nbits n) :: s.commands := placeCommand_commands _ s
  rw [step_command hp (decode_tableWord h), taken_withFetchWord]

/-- Settles O10, which is the idle case of a step. -/
theorem idleStepChangesNothing : Obligations.IdleStepChangesNothing := fun _ => step_idle

end Sys2Proof.Machine
end

section
/-! Proofs of the statements of 10_state.md: the reset values, the invariants of the state, and what is dead. -/

namespace Sys2Proof.Machine

/-- A word that spells a command is that command's encoding, and no other word spells it (R43, R44). -/
theorem decode_eq_command {w : Word} {c : Instr} : decode w = .command c ↔ w = encode c := by
  constructor
  · intro h
    rw [← joinFields_fields w]
    unfold decode at h
    split at h
    · next ho => cases h; rw [ho]; rfl
    · split at h
      · next ho => cases h; rw [ho.1, ho.2]; rfl
      · split at h
        · next ho => cases h; rw [ho]; rfl
        · split at h
          · next ho => cases h; rw [ho.1, ho.2]; rfl
          · cases h
  · rintro rfl
    cases c <;> simp [decode, encode]

/-- What a step leaves: the state as it is, or the oldest pending event performed. -/
theorem step_next_cases {s t : State} (h : step s = .next t) :
    (s.commands = [] ∧ t = s) ∨ ∃ e rest, s.commands = e :: rest ∧ t = withPending rest (performed e s) := by
  cases hc : s.commands with
  | nil => exact .inl ⟨rfl, (Host.Outcome.next.inj ((step_idle hc).symm.trans h)).symm⟩
  | cons e rest =>
    exact .inr ⟨e, rest, rfl, (Host.Outcome.next.inj ((step_performed hc).symm.trans h)).symm⟩

/-- Every entry of `S` has a value, so no read of it gives a free value (R19, R20). -/
def sIsStored (s : State) : Prop := ∀ a : Byte, (s.S.read? a.toNat).isSome = true

/-- A stored `S` reads alike whatever the counter of free values. -/
theorem sRead_eq_of_sIsStored {s t : State} (h : sIsStored s)
    (hS : ∀ a : Byte, s.S.read? a.toNat = t.S.read? a.toNat) : sRead s = sRead t := by
  funext a
  obtain ⟨v, hv⟩ := Option.isSome_iff_exists.1 (h a)
  rw [sRead_of_read? hv, sRead_of_read? (hS a ▸ hv)]

/-! ### Permutations -/

/-- The key schedule leaves a permutation after every round (R60 (b)). -/
theorem ksaAfter_bijective (key : List Byte) (r : Nat) : Function.Bijective (Rc4.ksaAfter key r).1 := by
  induction r with
  | zero => exact Function.bijective_id
  | succ r ih => exact exchange_bijective ih _ _

/-- A round of the generator keeps a permutation (R20). -/
theorem prgaRound_bijective {c : Rc4.Context} (h : Function.Bijective c.S) :
    Function.Bijective (Rc4.prgaRound c).1.S := exchange_bijective h _ _

/-- Settles O26: a round is an exchange of two entries, and the schedule starts from the identity. -/
theorem everyRoundKeepsAPermutation : Obligations.EveryRoundKeepsAPermutation :=
  ⟨ksaAfter_bijective, fun _ => prgaRound_bijective⟩

theorem sIsPermutation_of_S_eq {s t : State} (h : sIsPermutation s) (hS : t.S = s.S) : sIsPermutation t := by
  obtain ⟨hstored, hbij⟩ := h
  exact ⟨hS ▸ hstored, sRead_eq_of_sIsStored (t := t) hstored (fun _ => by rw [hS]) ▸ hbij⟩

/-- What `KSA` leaves in `S` is a permutation (R57, R60). -/
theorem ScheduleOf.sIsPermutation {s u : State} (h : ScheduleOf s u) : sIsPermutation u :=
  ⟨h.stored, h.result ▸ ksaAfter_bijective (heldKey s) 256⟩

/-- The round of an `XORB` keeps a permutation (R20, R64). -/
theorem sIsPermutation_xorbWrites {s : State} (h : sIsPermutation s) : sIsPermutation (xorbWrites s) :=
  ⟨fun a => isSome_read?_xorbWrites (h.1 a), sRead_xorbWrites s ▸ exchange_bijective h.2 _ _⟩

/-! ### The invariant -/

/-- The invariant speaks of `S`, `K`, `KLEN`, `KOVF` and `PHASE` only. -/
theorem Inv.congr {s t : State} (h : Inv s) (hS : t.S = s.S) (hK : t.K = s.K) (hlen : t.KLEN = s.KLEN)
    (hovf : t.KOVF = s.KOVF) (hphase : t.PHASE = s.PHASE) : Inv t := by
  obtain ⟨hctl, hperm, hkey, hSwf, hKwf⟩ := h
  refine ⟨?_, fun hp => sIsPermutation_of_S_eq (hperm (hphase ▸ hp)) hS, ?_, hS ▸ hSwf, hK ▸ hKwf⟩
  · rwa [controlInvariant, hlen, hovf, hphase]
  · rwa [keyIsStored, hlen, hK]

/-- A state that holds no key meets the invariant when `S` is canonical, and in `PH_RUN` a permutation. -/
theorem inv_of_key_cleared {s : State} (hlen : s.KLEN = 0) (hovf : s.KOVF = false) (hK : s.K = [])
    (hSwf : s.S.wf = true) (hperm : s.PHASE = .phRun → sIsPermutation s) : Inv s :=
  ⟨by simp [controlInvariant, hlen, hovf], hperm, by simp [keyIsStored, hlen], hSwf, hK ▸ Memory.wf_nil⟩

theorem inv_resetEvent (s : State) : Inv (resetEvent s) := inv_of_key_cleared rfl rfl rfl rfl nofun

theorem inv_endWrites (s : State) : Inv (endWrites s) := inv_of_key_cleared rfl rfl rfl rfl nofun

/-- A stored key byte is counted by `KLEN` and by it alone (R14, R56). -/
theorem inv_appendKeyByte {s : State} (b : Byte) (h : Inv s) (hp : s.PHASE = .phKey)
    (hr : keyHasRoom s.KLEN = true) : Inv (appendKeyByte b s) := by
  obtain ⟨⟨-, hovf, -⟩, -, hkey, hSwf, hKwf⟩ := h
  have hlt : s.KLEN.toNat < 256 := keyHasRoom_true.1 hr
  have hphase : (appendKeyByte b s).PHASE ≠ .phRun := by simp [hp]
  refine ⟨⟨?_, fun ho => ?_, fun hp' => absurd hp' hphase⟩, fun hp' => absurd hp' hphase, fun a ha => ?_, hSwf,
    wf_kWrite _ _ hKwf⟩
  · rw [appendKeyByte_KLEN, nextKeyLength_toNat hr]
    omega
  · have := hovf ho
    omega
  · rw [appendKeyByte_KLEN, nextKeyLength_toNat hr] at ha
    rw [appendKeyByte_K, storeAddress_toNat hr, Memory.read?_write]
    split
    · rfl
    · exact hkey a (by omega)

theorem inv_setOverflow {s : State} (h : Inv s) (hp : s.PHASE = .phKey) (hr : keyHasRoom s.KLEN = false) :
    Inv (setOverflow s) := by
  obtain ⟨⟨hlen, -, -⟩, -, hkey, hSwf, hKwf⟩ := h
  have hphase : (setOverflow s).PHASE ≠ .phRun := by simp [hp]
  exact ⟨⟨hlen, fun _ => le_antisymm hlen (keyHasRoom_false.1 hr), fun hp' => absurd hp' hphase⟩,
    fun hp' => absurd hp' hphase, hkey, hSwf, hKwf⟩

theorem inv_enterRun {s u : State} (h : Inv s) (hu : ScheduleOf s u) : Inv (enterRun u) := by
  obtain ⟨-, -, -, hSwf, -⟩ := h
  exact inv_of_key_cleared rfl rfl rfl (hu.wf hSwf) fun _ => sIsPermutation_of_S_eq hu.sIsPermutation rfl

theorem inv_xorbWrites {s : State} (h : Inv s) (hp : s.PHASE = .phRun) : Inv (xorbWrites s) := by
  obtain ⟨hctl, hperm, hkey, hSwf, hKwf⟩ := h
  exact ⟨hctl, fun _ => sIsPermutation_xorbWrites (hperm hp), hkey, wf_xorbWrites hSwf, hKwf⟩

theorem inv_respond {s : State} (r : Response) (h : Inv s) : Inv (respond r s) := h.congr rfl rfl rfl rfl rfl

/-- Every command keeps the invariant, each case of its meaning in turn. -/
theorem inv_execState (c : Instr) {s : State} (h : Inv s) : Inv (execState c s) := by
  have hc := exec_cases c s
  rw [exec_eq] at hc
  generalize execState c s = t at hc ⊢
  cases hc with
  | refused _ => exact inv_respond _ h
  | store b hp hr => exact inv_respond _ (inv_appendKeyByte b h hp hr)
  | overflow b hp hr => exact inv_respond _ (inv_setOverflow h hp hr)
  | invalidKey hp _ =>
    obtain ⟨-, -, -, hSwf, -⟩ := h
    exact inv_of_key_cleared rfl rfl rfl hSwf fun hp' => absurd (hp.symm.trans hp') nofun
  | build _ _ u hu => exact inv_respond _ (inv_enterRun h hu)
  | round b hp => exact inv_respond _ (inv_xorbWrites h hp)
  | finish => exact inv_respond _ (inv_endWrites s)

/-- Every host event keeps the invariant. -/
theorem inv_performed (e : HostEvent) {s : State} (h : Inv s) : Inv (performed e s) := by
  have hcounted : Inv (counted s) := h.congr rfl rfl rfl rfl rfl
  cases e with
  | reset => exact inv_resetEvent _
  | command w =>
    cases hw : decode w with
    | command c => rw [performed_command hw]; exact inv_execState c hcounted
    | illegal => rw [performed_illegal hw]; exact inv_respond _ hcounted

/-- Settles O41: a step with an event pending performs it, and an idle step changes nothing. -/
theorem everyStepKeepsTheInvariant : Obligations.EveryStepKeepsTheInvariant := by
  intro s t h hstep
  rcases step_next_cases hstep with ⟨-, rfl⟩ | ⟨e, rest, -, rfl⟩
  · exact h
  · exact (inv_performed e h).congr rfl rfl rfl rfl rfl

/-- Settles O40: the reset state holds no key, and its dead memories list nothing. -/
theorem invariantHoldsAtReset : Obligations.InvariantHoldsAtReset := inv_of_key_cleared rfl rfl rfl rfl nofun

/-- Settles O14, by the definition of the reset state. -/
theorem resetValuesOfTheSpec : Obligations.ResetValuesOfTheSpec := ⟨rfl, rfl, rfl, rfl⟩

/-! ### The key buffer and its flag -/

theorem xorbWrites_KOVF (s : State) : (xorbWrites s).KOVF = s.KOVF := rfl

/-- The one command that sets `KOVF`: a `KEYB` that finds the key buffer full (R16, R56). -/
theorem execState_KOVF_iff (c : Instr) {s : State} (h : s.KOVF = false) :
    (execState c s).KOVF = true ↔ s.PHASE = .phKey ∧ keyHasRoom s.KLEN = false ∧ ∃ b, c = .keyb b := by
  have hc := exec_cases c s
  rw [exec_eq] at hc
  generalize execState c s = t at hc ⊢
  cases hc with
  | refused hr =>
    refine iff_of_false (by simp [errorWrites, h]) ?_
    rintro ⟨hp, -, b, rfl⟩
    simp [hp, accepts] at hr
  | store b hp hr => simp [h, hr]
  | overflow b hp hr => simp [hp, hr]
  | invalidKey _ _ => simp [errorWrites]
  | build _ _ u hu => simp
  | round b hp => simp [xorbWrites_KOVF, h]
  | finish => simp

/-- Settles O23: only a command changes `KOVF` to 1, and the command performed is the one the pending word spells. -/
theorem onlyAFullKeybSetsOverflow : Obligations.OnlyAFullKeybSetsOverflow := by
  intro s t hinv hstep hovf
  obtain ⟨hlen, -, -⟩ := hinv
  have hfull : keyHasRoom s.KLEN = false ↔ s.KLEN.toNat = 256 := by
    rw [keyHasRoom_false]
    omega
  rcases step_next_cases hstep with ⟨hc, rfl⟩ | ⟨e, rest, hc, rfl⟩
  · simp [hc, hovf]
  · rw [hc]
    change (performed e s).KOVF = true ↔ _
    cases e with
    | reset => simp [performed_reset]
    | command w =>
      cases hw : decode w with
      | illegal =>
        have hne : ∀ b, w ≠ encode (.keyb b) := fun b hb => by simp [decode_eq_command.2 hb] at hw
        simp [performed_illegal hw, counted, hovf, hne]
      | command c =>
        have hcw : ∀ b, w = encode (.keyb b) ↔ c = .keyb b := fun b => by
          rw [← decode_eq_command, hw, Decoded.command.injEq]
        rw [performed_command hw, execState_KOVF_iff c (s := counted s) hovf]
        simp [counted, hfull, hcw]

/-- No command changes a key byte that is held before and after it (R14, R56). -/
theorem read?_execState_K (c : Instr) {s : State} {a : Nat} (ha : a < s.KLEN.toNat)
    (ha' : a < (execState c s).KLEN.toNat) : (execState c s).K.read? a = s.K.read? a := by
  have hc := exec_cases c s
  rw [exec_eq] at hc
  generalize execState c s = t at hc ha' ⊢
  cases hc with
  | refused _ => rfl
  | store b _ hr => exact Memory.read?_write_other _ _ (by rw [storeAddress_toNat hr]; exact ha.ne)
  | overflow _ _ _ => rfl
  | invalidKey _ _ => exact absurd ha' (Nat.not_lt_zero a)
  | build _ _ u hu => exact absurd ha' (Nat.not_lt_zero a)
  | round _ _ => rfl
  | finish => exact absurd ha' (Nat.not_lt_zero a)

/-- Settles O24: a `KEYB` writes the entry at `KLEN`, and what else writes `K` leaves `KLEN` 0. -/
theorem storedKeyBytesAreNeverChanged : Obligations.StoredKeyBytesAreNeverChanged := by
  intro s t hstep a ha ha'
  rcases step_next_cases hstep with ⟨-, rfl⟩ | ⟨e, rest, -, rfl⟩
  · rfl
  · change a < (performed e s).KLEN.toNat at ha'
    change (performed e s).K.read? a = _
    cases e with
    | reset => exact absurd ha' (Nat.not_lt_zero a)
    | command w =>
      cases hw : decode w with
      | illegal => rw [performed_illegal hw]; rfl
      | command c =>
        rw [performed_command hw] at ha' ⊢
        exact read?_execState_K c (s := counted s) ha ha'

/-! ### Dead state -/

/-- A context that is stored does not depend on the counter of free values. -/
theorem contextOf_counted {s : State} (h : sIsStored s) : contextOf (counted s) = contextOf s := by
  rw [contextOf, sRead_eq_of_sIsStored (s := counted s) (t := s) h fun _ => rfl]
  rfl

/-- Two engines whose live state is stored and the same: what no response can tell apart (R19). -/
structure LiveAlike (s t : State) : Prop where
  phase : s.PHASE = t.PHASE
  klen : s.KLEN = t.KLEN
  kovf : s.KOVF = t.KOVF
  key : ∀ a, a < s.KLEN.toNat → ∃ v, s.K.read? a = some v ∧ t.K.read? a = some v
  context : s.PHASE = .phRun → sIsStored s ∧ sIsStored t ∧ contextOf s = contextOf t

theorem liveAlike_of_liveAgree {s t : State} (hs : liveIsStored s) (ht : liveIsStored t) (h : liveAgree s t) :
    LiveAlike s t := by
  obtain ⟨hphase, hklen, hkovf, hK, hrun⟩ := h
  refine ⟨hphase, hklen, hkovf, fun a ha => ?_, fun hp => ⟨hs.2 hp, ht.2 (hphase ▸ hp), ?_⟩⟩
  · obtain ⟨v, hv⟩ := Option.isSome_iff_exists.1 (hs.1 a ha)
    exact ⟨v, hv, hK a ha ▸ hv⟩
  · obtain ⟨hS, hi, hj⟩ := hrun hp
    simp [contextOf, sRead_eq_of_sIsStored (hs.2 hp) hS, hi, hj]

/-- With no key held and not in `PH_RUN`, nothing is live but the control state. -/
theorem liveAlike_of_key_cleared {s t : State} (hs : resetRelation s) (ht : resetRelation t) : LiveAlike s t := by
  obtain ⟨hp, hk, ho⟩ := hs
  obtain ⟨hp', hk', ho'⟩ := ht
  exact ⟨hp.trans hp'.symm, hk.trans hk'.symm, ho.trans ho'.symm, fun a ha => by simp [hk] at ha,
    fun h => absurd (hp.symm.trans h) nofun⟩

namespace LiveAlike

variable {s t : State} (h : LiveAlike s t)

include h

theorem respond (r : Response) : LiveAlike (respond r s) (respond r t) :=
  ⟨h.phase, h.klen, h.kovf, h.key, h.context⟩

/-- The counter of free values is read only where nothing is stored. -/
theorem counted : LiveAlike (counted s) (counted t) where
  phase := h.phase
  klen := h.klen
  kovf := h.kovf
  key := h.key
  context hp := by
    obtain ⟨hs, ht, hc⟩ := h.context hp
    exact ⟨hs, ht, ((contextOf_counted hs).trans hc).trans (contextOf_counted ht).symm⟩

/-- The two engines hold the same key, also where the 9-bit `KLEN` is above 256 and entries are read again (log 7). -/
theorem heldKey_eq : heldKey s = heldKey t := by
  rw [heldKey, heldKey, ← h.klen]
  refine List.map_congr_left fun a ha => ?_
  have hlt : (byteMod a).toNat < s.KLEN.toNat := by
    rw [byteMod_toNat]
    exact (Nat.mod_le a 256).trans_lt (List.mem_range.1 ha)
  obtain ⟨v, hs, ht⟩ := h.key _ hlt
  rw [kRead, kRead, hs, ht]
  rfl

theorem appendKeyByte (b : Byte) (hp : s.PHASE = .phKey) (hr : keyHasRoom s.KLEN = true) :
    LiveAlike (appendKeyByte b s) (appendKeyByte b t) where
  phase := h.phase
  klen := congrArg nextKeyLength h.klen
  kovf := h.kovf
  key a ha := by
    rw [appendKeyByte_KLEN, nextKeyLength_toNat hr] at ha
    rw [appendKeyByte_K, appendKeyByte_K, ← h.klen, storeAddress_toNat hr, Memory.read?_write, Memory.read?_write]
    split
    · exact ⟨b, rfl, rfl⟩
    · exact h.key a (by omega)
  context hp' := absurd (hp.symm.trans hp') nofun

theorem setOverflow : LiveAlike (setOverflow s) (setOverflow t) :=
  ⟨h.phase, h.klen, rfl, h.key, h.context⟩

/-- The schedules of the two engines end in the same permutation, that of the key they both hold (R59). -/
theorem enterRun {u v : State} (hu : ScheduleOf s u) (hv : ScheduleOf t v) :
    LiveAlike (enterRun u) (enterRun v) where
  phase := rfl
  klen := rfl
  kovf := rfl
  key a ha := absurd ha (Nat.not_lt_zero a)
  context _ := by
    refine ⟨hu.stored, hv.stored, ?_⟩
    simp [contextOf, hu.sRead_enterRun, hv.sRead_enterRun, h.heldKey_eq]

theorem xorbWrites (hp : s.PHASE = .phRun) : LiveAlike (xorbWrites s) (xorbWrites t) where
  phase := h.phase
  klen := h.klen
  kovf := h.kovf
  key := h.key
  context _ := by
    obtain ⟨hs, ht, hc⟩ := h.context hp
    refine ⟨fun a => isSome_read?_xorbWrites (hs a), fun a => isSome_read?_xorbWrites (ht a), ?_⟩
    rw [contextOf_xorbWrites, contextOf_xorbWrites, hc]

theorem keystreamByte_eq (hp : s.PHASE = .phRun) :
    keystreamByte (Machine.xorbWrites s) = keystreamByte (Machine.xorbWrites t) := by
  obtain ⟨-, -, hc⟩ := h.context hp
  rw [keystreamByte_xorbWrites, keystreamByte_xorbWrites, hc]

end LiveAlike

/-- From `s` and `t` two engines came to `s'` and `t'`: alike in what is live, and having emitted the same words. -/
structure AnsweredAlike (s t s' t' : State) : Prop where
  alike : LiveAlike s' t'
  words : ∃ ws, s'.responses = s.responses ++ ws ∧ t'.responses = t.responses ++ ws

theorem AnsweredAlike.trans {s t s' t' s'' t'' : State} (h : AnsweredAlike s t s' t')
    (h' : AnsweredAlike s' t' s'' t'') : AnsweredAlike s t s'' t'' := by
  obtain ⟨-, ws, hs, ht⟩ := h
  obtain ⟨halike, ws', hs', ht'⟩ := h'
  exact ⟨halike, ws ++ ws', by rw [hs', hs, List.append_assoc], by rw [ht', ht, List.append_assoc]⟩

theorem answeredAlike_respond {s t s' t' : State} (r : Response) (h : LiveAlike s' t')
    (hs : s'.responses = s.responses) (ht : t'.responses = t.responses) :
    AnsweredAlike s t (respond r s') (respond r t') :=
  ⟨h.respond r, [responseWord r], by rw [respond_responses, hs], by rw [respond_responses, ht]⟩

/-- The same command completes on two engines with the same response, and leaves them alike. -/
theorem answeredAlike_of_complete {c : Instr} {r : Response} {s t s' t' : State} (hs : exec c s = complete r s')
    (ht : exec c t = complete r t') (h : LiveAlike s' t') (hrs : s'.responses = s.responses)
    (hrt : t'.responses = t.responses) : AnsweredAlike s t (execState c s) (execState c t) := by
  rw [execState_eq hs, execState_eq ht]
  exact answeredAlike_respond r h hrs hrt

/-- A command takes the same path on two engines alike in what is live. -/
theorem answeredAlike_execState (c : Instr) {s t : State} (h : LiveAlike s t) :
    AnsweredAlike s t (execState c s) (execState c t) := by
  have hc := exec_cases c s
  generalize ho : exec c s = o at hc
  cases hc with
  | refused hr => exact answeredAlike_of_complete ho (exec_refused (h.phase ▸ hr)) h rfl rfl
  | store b hp hr =>
    exact answeredAlike_of_complete ho (exec_keyb_store (h.phase ▸ hp) (h.klen ▸ hr)) (h.appendKeyByte b hp hr) rfl rfl
  | overflow b hp hr =>
    exact answeredAlike_of_complete ho (exec_keyb_overflow (h.phase ▸ hp) (h.klen ▸ hr)) h.setOverflow rfl rfl
  | invalidKey hp hk =>
    have hp' : t.PHASE = .phKey := h.phase ▸ hp
    exact answeredAlike_of_complete ho (exec_ksa_invalid hp' (h.klen ▸ h.kovf ▸ hk))
      (liveAlike_of_key_cleared ⟨hp, rfl, rfl⟩ ⟨hp', rfl, rfl⟩) rfl rfl
  | build hp hk u hu =>
    obtain ⟨v, hv, hbuild⟩ := exec_ksa_build (s := t) (h.phase ▸ hp) (h.klen ▸ h.kovf ▸ hk)
    exact answeredAlike_of_complete ho hbuild (h.enterRun hu hv) hu.responses hv.responses
  | round b hp =>
    rw [h.keystreamByte_eq hp] at ho
    exact answeredAlike_of_complete ho (exec_xorb_run (h.phase ▸ hp)) (h.xorbWrites hp) rfl rfl
  | finish =>
    exact answeredAlike_of_complete ho (exec_end t)
      (liveAlike_of_key_cleared ⟨rfl, rfl, rfl⟩ ⟨rfl, rfl, rfl⟩) rfl rfl

theorem answeredAlike_performed (e : HostEvent) {s t : State} (h : LiveAlike s t) :
    AnsweredAlike s t (performed e s) (performed e t) := by
  cases e with
  | reset => exact ⟨liveAlike_of_key_cleared ⟨rfl, rfl, rfl⟩ ⟨rfl, rfl, rfl⟩, [], by simp [performed_reset, counted]⟩
  | command w =>
    cases hw : decode w with
    | illegal =>
      rw [performed_illegal hw, performed_illegal hw]
      exact answeredAlike_respond _ h.counted rfl rfl
    | command c =>
      rw [performed_command hw, performed_command hw]
      obtain ⟨halike, hwords⟩ := answeredAlike_execState c h.counted
      exact ⟨halike, hwords⟩

theorem answeredAlike_performedAll (es : List HostEvent) {s t : State} (h : LiveAlike s t) :
    AnsweredAlike s t (performedAll es s) (performedAll es t) := by
  induction es generalizing s t with
  | nil => exact ⟨h, [], by simp⟩
  | cons e es ih =>
    have he := answeredAlike_performed e h
    exact he.trans (ih he.alike)

/-- Two engines alike in what is live answer every run of host events alike (R80). -/
theorem responsesTo_eq_of_liveAlike {s t : State} (h : LiveAlike s t) (hs : s.commands = []) (ht : t.commands = [])
    (es : List HostEvent) : responsesTo es s = responsesTo es t := by
  obtain ⟨-, ws, hws, hwt⟩ := answeredAlike_performedAll es h
  rw [responsesTo, responsesTo, afterEvents_eq hs, afterEvents_eq ht, hws, hwt, List.drop_left, List.drop_left]

/-- Settles O42: what is live and stored decides every response and what is live after it. -/
theorem deadStateNeverReachesAResponse : Obligations.DeadStateNeverReachesAResponse :=
  fun _ _ hs ht h hcs hct => responsesTo_eq_of_liveAlike (liveAlike_of_liveAgree hs ht h) hcs hct

end Sys2Proof.Machine
end

section
/-! Proofs of the statements of 20_memory.md: the accesses of the two spaces and the swap. -/

namespace Sys2Proof.Machine

@[simp] theorem sRead_kWrite (a v : Byte) (s : State) : sRead (kWrite a v s) = sRead s := sRead_congr rfl rfl

@[simp] theorem exchange_left (S : Rc4.SBox) (a b : Byte) : Rc4.exchange S a b a = S b := if_pos rfl

@[simp] theorem exchange_right (S : Rc4.SBox) (a b : Byte) : Rc4.exchange S a b b = S a := by
  by_cases h : b = a
  · rw [h, exchange_left]
  · rw [Rc4.exchange, if_neg h, if_pos rfl]

theorem exchange_other (S : Rc4.SBox) {a b x : Byte} (ha : x ≠ a) (hb : x ≠ b) : Rc4.exchange S a b x = S x := by
  rw [Rc4.exchange, if_neg ha, if_neg hb]

/-- An exchange of an entry with itself changes nothing (R35). -/
@[simp] theorem exchange_self (S : Rc4.SBox) (a : Byte) : Rc4.exchange S a a = S := by
  funext x
  by_cases h : x = a
  · rw [h, exchange_left]
  · exact exchange_other S h h

/-- A swap keeps every entry stored and a bijection a bijection (R20, R35). -/
theorem sIsPermutation_sSwap {s : State} (a b : Byte) (h : sIsPermutation s) : sIsPermutation (sSwap a b s) := by
  obtain ⟨hstored, hbij⟩ := h
  exact ⟨fun x => isSome_read?_sSwap a b (hstored x), sRead_sSwap a b s ▸ exchange_bijective hbij a b⟩

/-- Settles O18: the swap is the exchange of two entries of what `S` reads as. -/
theorem swapExchangesTwoEntries : Obligations.SwapExchangesTwoEntries := by
  intro s a b
  simp only [sRead_sSwap]
  exact ⟨exchange_left _ a b, exchange_right _ a b, fun _ => exchange_other _,
    congrFun (exchange_self _ a), sIsPermutation_sSwap a b⟩

/-- Settles O17: each space by its own law of a read after a write, and neither read looks at the other space. -/
theorem readsGiveTheLastWrite : Obligations.ReadsGiveTheLastWrite := fun s a v x =>
  ⟨sRead_sWrite a v x s, kRead_kWrite a v x s, congrFun (kRead_sWrite a v s) x, congrFun (sRead_kWrite a v s) x, rfl, rfl⟩

end Sys2Proof.Machine
end

section
/-! Proofs of the statements of 30_encoding.md: decoding and encoding, the assembler, and the response words. -/

namespace Sys2Proof.Machine

/-! ### Decoding -/

/-- Settles O3: a word decodes to a command exactly when it is the command's word. -/
theorem decodeAndEncodeAgree : Obligations.DecodeAndEncodeAgree :=
  fun _ _ => ⟨decode_eq_command.2 rfl, fun _ => decode_eq_command.1⟩

/-- A word is given by its two fields (R41). -/
theorem word_eq_iff {w v : Word} : w = v ↔ opField w = opField v ∧ loField w = loField v := by
  constructor
  · rintro rfl
    exact ⟨rfl, rfl⟩
  · rintro ⟨ho, hl⟩
    rw [← joinFields_fields w, ho, hl, joinFields_fields]

theorem opField_eq_iff {w : Word} {b : Byte} : opField w = b ↔ w.toNat / 256 = b.toNat := by
  rw [← BitVec.toNat_inj, opField_toNat]

theorem eq_encode_keyb {w : Word} (h : opField w = 0x01) : w = encode (.keyb (loField w)) := by
  rw [encode, ← h, joinFields_fields]

theorem eq_encode_xorb {w : Word} (h : opField w = 0x03) : w = encode (.xorb (loField w)) := by
  rw [encode, ← h, joinFields_fields]

theorem eq_encode_ksa {w : Word} (ho : opField w = 0x02) (hl : loField w = 0x00) : w = encode .ksa := by
  rw [encode, ← ho, ← hl, joinFields_fields]

theorem eq_encode_end {w : Word} (ho : opField w = 0x04) (hl : loField w = 0x00) : w = encode .endInvocation := by
  rw [encode, ← ho, ← hl, joinFields_fields]

/-- The fields of a masked word are the masked fields. -/
theorem opField_and (w v : Word) : opField (w &&& v) = opField w &&& opField v := by
  apply BitVec.eq_of_toNat_eq
  simp only [opField_toNat, BitVec.toNat_and]
  exact Nat.and_div_two_pow (n := 8)

theorem loField_and (w v : Word) : loField (w &&& v) = loField w &&& loField v := by
  apply BitVec.eq_of_toNat_eq
  simp only [loField_toNat, BitVec.toNat_and]
  exact Nat.and_mod_two_pow (n := 8)

theorem decode_ne_illegal {w : Word} : decode w ≠ .illegal ↔ ∃ c, encode c = w := by
  cases h : decode w with
  | command c => exact iff_of_true nofun ⟨c, (decode_eq_command.1 h).symm⟩
  | illegal =>
    refine iff_of_false (fun hne => hne rfl) ?_
    rintro ⟨c, hc⟩
    simp [decode_eq_command.2 hc.symm] at h

theorem decode_eq_illegal {w : Word} : decode w = .illegal ↔ ∀ c, encode c ≠ w := by
  rw [← not_iff_not, ← ne_eq, decode_ne_illegal]
  simp

/-- The encoder and the field check of R45 speak of the same words. -/
theorem exists_encode_iff_wellFormed {hi lo : Byte} :
    (∃ c, encode c = joinFields hi lo) ↔ CommandFields.wellFormed ⟨hi, lo⟩ = true := by
  simp only [CommandFields.wellFormed, Bool.or_eq_true, Bool.and_eq_true, beq_iff_eq]
  constructor
  · rintro ⟨c, hc⟩
    obtain ⟨ho, hl⟩ := word_eq_iff.1 hc
    simp only [opField_joinFields, loField_joinFields] at ho hl
    subst ho hl
    cases c <;> simp [encode]
  · rintro (((rfl | ⟨rfl, rfl⟩) | rfl) | ⟨rfl, rfl⟩)
    · exact ⟨.keyb lo, rfl⟩
    · exact ⟨.ksa, rfl⟩
    · exact ⟨.xorb lo, rfl⟩
    · exact ⟨.endInvocation, rfl⟩

/-- Settles O4: both say that the word is the word of some command. -/
theorem wellFormedFieldsDecode : Obligations.WellFormedFieldsDecode :=
  fun _ => exists_encode_iff_wellFormed.symm.trans decode_ne_illegal.symm

/-- The word of a command selects the command's row (R43). -/
theorem encode_selects (c : Instr) : (rowOf c).selects (encode c) = true := by
  cases c with
  | keyb b => exact (Laws.EncodingSelectsRow.keyb b).2
  | ksa => exact Laws.EncodingSelectsRow.ksa.2
  | xorb b => exact (Laws.EncodingSelectsRow.xorb b).2
  | endInvocation => exact Laws.EncodingSelectsRow.endInvocation.2

/-- A word that selects the row of a command is the word of a command of that row: the mask keeps the opcode, and in
format `Z` the whole word (R43). -/
theorem exists_encode_of_selects {c : Instr} {w : Word} (h : (rowOf c).selects w = true) :
    ∃ d, w = encode d ∧ rowOf d = rowOf c := by
  have hand : w &&& (rowOf c).mask = (rowOf c).pattern := by simpa [OpcodeRow.selects] using h
  obtain ⟨ho, hl⟩ := word_eq_iff.1 hand
  rw [opField_and] at ho
  rw [loField_and] at hl
  have ones : ∀ b : Byte, b &&& 0xFF = b := fun _ => BitVec.and_allOnes
  cases c with
  | keyb b =>
    simp only [rowOf] at ho
    exact ⟨.keyb (loField w), eq_encode_keyb ((ones _).symm.trans ho), rfl⟩
  | ksa => exact ⟨.ksa, eq_encode_ksa ((ones _).symm.trans ho) ((ones _).symm.trans hl), rfl⟩
  | xorb b =>
    simp only [rowOf] at ho
    exact ⟨.xorb (loField w), eq_encode_xorb ((ones _).symm.trans ho), rfl⟩
  | endInvocation => exact ⟨.endInvocation, eq_encode_end ((ones _).symm.trans ho) ((ones _).symm.trans hl), rfl⟩

theorem rowOf_selects_iff {c : Instr} {w : Word} :
    (rowOf c).selects w = true ↔ ∃ d, decode w = .command d ∧ rowOf d = rowOf c := by
  simp only [decode_eq_command]
  constructor
  · exact exists_encode_of_selects
  · rintro ⟨d, rfl, hd⟩
    exact hd ▸ encode_selects d

theorem mem_opcodeMap_iff {r : OpcodeRow} : r ∈ opcodeMap ↔ ∃ c, rowOf c = r := by
  constructor
  · intro h
    simp only [opcodeMap, List.mem_cons, List.not_mem_nil, or_false] at h
    rcases h with rfl | rfl | rfl | rfl <;> exact ⟨_, rfl⟩
  · rintro ⟨c, rfl⟩
    cases c <;> simp [opcodeMap, rowOf]

/-- Settles O2: each row of the map is the row of a command. -/
theorem opcodeRowsSelectTheirCommands : Obligations.OpcodeRowsSelectTheirCommands := by
  refine ⟨rfl, fun r hr w => ?_, fun c => mem_opcodeMap_iff.2 ⟨c, rfl⟩, rfl, rfl, rfl, rfl⟩
  obtain ⟨c, rfl⟩ := mem_opcodeMap_iff.1 hr
  rw [← rowOf_selects_iff, OpcodeRow.selects, beq_iff_eq]

theorem encode_injective : Function.Injective encode := by
  intro c d h
  have hd : decode (encode c) = .command d := decode_eq_command.2 h
  rw [decode_eq_command.2 rfl] at hd
  exact Decoded.command.inj hd

/-- The commands: one for each byte in two rows of the opcode map, and one alone in each of two others (R43). -/
def instrEquiv : Instr ≃ (Byte ⊕ Byte) ⊕ Bool where
  toFun
    | .keyb b => .inl (.inl b)
    | .xorb b => .inl (.inr b)
    | .ksa => .inr false
    | .endInvocation => .inr true
  invFun
    | .inl (.inl b) => .keyb b
    | .inl (.inr b) => .xorb b
    | .inr false => .ksa
    | .inr true => .endInvocation
  left_inv c := by cases c <;> rfl
  right_inv
    | .inl (.inl _) => rfl
    | .inl (.inr _) => rfl
    | .inr false => rfl
    | .inr true => rfl

theorem natCard_bitVec (n : Nat) : Nat.card (BitVec n) = 2 ^ n := by
  rw [Nat.card_congr BitVec.equivFin.toEquiv, Nat.card_fin]

theorem natCard_instr : Nat.card Instr = 514 := by
  rw [Nat.card_congr instrEquiv, Nat.card_sum, Nat.card_sum, natCard_bitVec, Nat.card_eq_fintype_card,
    Fintype.card_bool]
  rfl

/-- As many words decode to a command as there are commands. -/
theorem ncard_decode_ne_illegal : {w : Word | decode w ≠ .illegal}.ncard = 514 := by
  have : {w : Word | decode w ≠ .illegal} = Set.range encode := Set.ext fun _ => decode_ne_illegal
  rw [this, Set.ncard_range_of_injective encode_injective, natCard_instr]

theorem ncard_decode_eq_illegal : {w : Word | decode w = .illegal}.ncard = 65022 := by
  have h := Set.ncard_add_ncard_compl {w : Word | decode w ≠ .illegal}
  have hcompl : {w : Word | decode w ≠ .illegal}ᶜ = {w | decode w = .illegal} := by ext; simp
  rw [hcompl, ncard_decode_ne_illegal, natCard_bitVec] at h
  omega

theorem encode_keyb_toNat (b : Byte) : (encode (.keyb b)).toNat = 0x0100 + b.toNat := joinFields_toNat _ _

theorem encode_xorb_toNat (b : Byte) : (encode (.xorb b)).toNat = 0x0300 + b.toNat := joinFields_toNat _ _

/-- Every command word lies in one of the four ranges of R44. -/
theorem encode_range (c : Instr) :
    (encode c).toNat / 256 = 0x01 ∨ (encode c).toNat = 0x0200 ∨ (encode c).toNat / 256 = 0x03 ∨
      (encode c).toNat = 0x0400 := by
  cases c with
  | keyb b => rw [encode_keyb_toNat]; omega
  | ksa => exact .inr (.inl rfl)
  | xorb b => rw [encode_xorb_toNat]; omega
  | endInvocation => exact .inr (.inr (.inr rfl))

theorem decode_of_op_keyb {w : Word} (h : w.toNat / 256 = 0x01) : decode w = .command (.keyb (byteMod w.toNat)) :=
  decode_eq_command.2 (eq_encode_keyb (opField_eq_iff.2 h))

theorem decode_of_op_xorb {w : Word} (h : w.toNat / 256 = 0x03) : decode w = .command (.xorb (byteMod w.toNat)) :=
  decode_eq_command.2 (eq_encode_xorb (opField_eq_iff.2 h))

/-- Settles O1: the words of the commands by their numbers, then counted; a step decodes the word it takes. -/
theorem decodeIsTheTotalFunctionOfTheSpec : Obligations.DecodeIsTheTotalFunctionOfTheSpec := by
  refine ⟨fun w => ⟨decode_of_op_keyb, fun h => ?_, decode_of_op_xorb, fun h => ?_, ?_⟩, ncard_decode_ne_illegal,
    ncard_decode_eq_illegal, fun s w rest hs => ⟨fun c hw => step_command hs hw, fun hw => ?_⟩⟩
  · exact decode_eq_command.2 (BitVec.eq_of_toNat_eq h)
  · exact decode_eq_command.2 (BitVec.eq_of_toNat_eq h)
  · rintro ⟨h1, h2, h3, h4⟩
    refine decode_eq_illegal.2 fun c hc => ?_
    subst hc
    have := encode_range c
    omega
  · rw [step_word hs, performWord_illegal hw]
    rfl

/-! ### Responses -/

theorem responseWord_status (r : Response) : (responseWord r).toNat / 256 = (responseStatus r).toNat := by
  rw [← opField_toNat, responseWord, opField_joinFields]

theorem responseWord_data (r : Response) : (responseWord r).toNat % 256 = (responseData r).toNat := by
  rw [← loField_toNat, responseWord, loField_joinFields]

/-- A status is one of the five of R49. -/
theorem responseStatus_le (r : Response) : (responseStatus r).toNat ≤ 4 := by
  cases r with
  | ok => decide
  | data b => exact Nat.le_of_ble_eq_true rfl
  | error e => cases e <;> decide

theorem responseStatus_eq_data {r : Response} : (responseStatus r).toNat = 1 ↔ ∃ b, r = .data b := by
  cases r with
  | ok => exact iff_of_false (by decide) nofun
  | data b => exact iff_of_true rfl ⟨b, rfl⟩
  | error e => exact iff_of_false (by cases e <;> decide) nofun

theorem responseData_of_not_data {r : Response} (h : ¬∃ b, r = .data b) : responseData r = 0 := by
  cases r with
  | ok => rfl
  | data b => exact absurd ⟨b, rfl⟩ h
  | error e => rfl

/-- Every command emits one response word, and only an `XORB` in `PH_RUN` a `DATA` one (R49, R50). -/
theorem responses_execState (c : Instr) (s : State) :
    ∃ r, (execState c s).responses = s.responses ++ [responseWord r] ∧
      ∀ b, r = .data b → s.PHASE = .phRun ∧ ∃ d, c = .xorb d := by
  have hc := exec_cases c s
  rw [exec_eq] at hc
  generalize execState c s = t at hc ⊢
  cases hc with
  | refused _ => exact ⟨.error .sequenceError, rfl, nofun⟩
  | store b _ _ => exact ⟨.ok, rfl, nofun⟩
  | overflow b _ _ => exact ⟨.ok, rfl, nofun⟩
  | invalidKey _ _ => exact ⟨.error .invalidKey, rfl, nofun⟩
  | build _ _ u hu => exact ⟨.ok, by rw [respond_responses, enterRun_responses, hu.responses], nofun⟩
  | round b hp => exact ⟨.data _, rfl, fun _ _ => ⟨hp, b, rfl⟩⟩
  | finish => exact ⟨.ok, rfl, nofun⟩

/-- Every command word is answered by one response word, and only that of an `XORB` in `PH_RUN` by a `DATA` one. -/
theorem responses_performed_command (w : Word) (s : State) :
    ∃ r, (performed (.command w) s).responses = s.responses ++ [responseWord r] ∧
      ∀ b, r = .data b → s.PHASE = .phRun ∧ ∃ d, w = encode (.xorb d) := by
  cases hw : decode w with
  | illegal => exact ⟨.error .illegalCommand, by rw [performed_illegal hw]; rfl, nofun⟩
  | command c =>
    obtain ⟨r, hr, hdata⟩ := responses_execState c (counted s)
    refine ⟨r, by rw [performed_command hw]; exact hr, fun b hb => ?_⟩
    obtain ⟨hp, d, rfl⟩ := hdata b hb
    exact ⟨hp, d, decode_eq_command.1 hw⟩

/-- A reset event is answered by nothing (R100). -/
theorem responses_performed_reset (s : State) : (performed .reset s).responses = s.responses := rfl

/-- Settles O12: a step performs at most one event, and a command word is answered by one response word. -/
theorem oneResponseForEachCommand : Obligations.OneResponseForEachCommand := by
  intro s t hstep
  rcases step_next_cases hstep with ⟨hidle, rfl⟩ | ⟨e, rest, hc, rfl⟩
  · simp [hidle]
  · rw [hc]
    refine ⟨nofun, ?_, ?_⟩
    · rintro _ ⟨rfl, rfl⟩
      exact ⟨responses_performed_reset s, rfl⟩
    · rintro w _ ⟨rfl, rfl⟩
      obtain ⟨r, hr, -⟩ := responses_performed_command w s
      exact ⟨r, hr, rfl⟩

/-- What R48 and R49 say of one response word emitted from a state: `DATA` answers an `XORB` in `PH_RUN` alone. -/
def AllowedResponse (s : State) (w : Word) : Prop :=
  w.toNat / 256 ≤ 4 ∧ (w.toNat / 256 ≠ 1 → w.toNat % 256 = 0) ∧
    (w.toNat / 256 = 1 → s.PHASE = .phRun ∧ ∃ b rest, s.commands = .command (encode (.xorb b)) :: rest)

theorem allowedResponse_responseWord {s : State} {r : Response} (h : ∀ b, r = .data b →
    s.PHASE = .phRun ∧ ∃ b rest, s.commands = .command (encode (.xorb b)) :: rest) :
    AllowedResponse s (responseWord r) := by
  rw [AllowedResponse, responseWord_status, responseWord_data, ne_eq, responseStatus_eq_data]
  exact ⟨responseStatus_le r, fun hne => by rw [responseData_of_not_data hne]; rfl, fun ⟨b, hb⟩ => h b hb⟩

/-- Settles O13: the words a step emits are none, or the one that answers the command word it takes. -/
theorem onlyTheseResponseWords : Obligations.OnlyTheseResponseWords := by
  refine ⟨rfl, fun b => joinFields_toNat 0x01 b, rfl, rfl, rfl, fun s t hstep w hw => ?_⟩
  change AllowedResponse s w
  rcases step_next_cases hstep with ⟨-, rfl⟩ | ⟨e, rest, hc, rfl⟩
  · simp at hw
  · change w ∈ (performed e s).responses.drop s.responses.length at hw
    cases e with
    | reset => simp [responses_performed_reset] at hw
    | command v =>
      obtain ⟨r, hr, hdata⟩ := responses_performed_command v s
      rw [hr, List.drop_left, List.mem_singleton] at hw
      subst hw
      refine allowedResponse_responseWord fun b hb => ?_
      obtain ⟨hp, d, rfl⟩ := hdata b hb
      exact ⟨hp, d, rest, hc⟩

end Sys2Proof.Machine

namespace Sys2Proof.Asm

open Sys2Proof.Machine

/-! ### The assembler -/

/-- A character that the reader of a line puts into a name: none of the comment mark, the blanks, the comma and the two
quotes (R51). -/
def nameChar (c : Char) : Bool := decide (c.toNat ∉ [59, 32, 9, 44, 39, 34])

/-- A nonempty list of such characters. -/
def isName (name : List Char) : Bool := !name.isEmpty && name.all nameChar

theorem isName_iff {name : List Char} : isName name = true ↔ name ≠ [] ∧ ∀ c ∈ name, nameChar c = true := by
  simp [isName]

theorem tokens_nameChar {c : Char} (h : nameChar c = true) (acc cs : List Char) :
    tokens (.plain acc) (c :: cs) = tokens (.plain (c :: acc)) cs := by
  simp only [nameChar, decide_eq_true_eq, List.mem_cons, List.not_mem_nil, or_false, not_or] at h
  obtain ⟨h59, h32, h9, h44, h39, h34⟩ := h
  simp [tokens, h59, h32, h9, h44, h39, h34]

theorem tokens_name {name : List Char} (h : ∀ c ∈ name, nameChar c = true) (acc rest : List Char) :
    tokens (.plain acc) (name ++ rest) = tokens (.plain (name.reverse ++ acc)) rest := by
  induction name generalizing acc with
  | nil => rfl
  | cons c name ih =>
    obtain ⟨hc, hname⟩ := List.forall_mem_cons.1 h
    rw [List.cons_append, tokens_nameChar hc, ih hname, List.reverse_cons, List.append_assoc, List.singleton_append]

/-- A name is complete at the end of the line or at the next token. -/
theorem endName_reverse {name : List Char} (h : isName name = true) (ts : List Token) :
    endName name.reverse ts = .name name :: ts := by
  simp [endName, (isName_iff.1 h).1]

/-- A line that is one name. -/
theorem tokens_only_name {name : List Char} (h : isName name = true) :
    tokens (.plain []) name = some [.name name] := by
  have hread := tokens_name (isName_iff.1 h).2 [] []
  rw [List.append_nil, List.append_nil] at hread
  rw [hread, tokens, endName_reverse h]

/-- A line that starts with a name and a space. -/
theorem tokens_name_space {name : List Char} (h : isName name = true) (cs : List Char) :
    tokens (.plain []) (name ++ ' ' :: cs) = (tokens (.plain []) cs).map (.name name :: ·) := by
  have hspace : ∀ acc, tokens (.plain acc) (' ' :: cs) = (tokens (.plain []) cs).map (endName acc) := fun _ => rfl
  rw [tokens_name (isName_iff.1 h).2, List.append_nil, hspace, funext (endName_reverse h)]

/-- A double-quoted string of ASCII characters is read as it stands (R52). -/
theorem tokens_string {text : List Char} (h : ∀ c ∈ text, c.toNat < 128 ∧ c.toNat ≠ 34) (acc : List Char) :
    tokens (.string acc) (text ++ [Char.ofNat 34]) = some [.text (acc.reverse ++ text)] := by
  induction text generalizing acc with
  | nil => rw [List.append_nil]; rfl
  | cons c text ih =>
    obtain ⟨⟨hascii, hquote⟩, htext⟩ := List.forall_mem_cons.1 h
    have hc : tokens (.string acc) (c :: (text ++ [Char.ofNat 34]))
        = tokens (.string (c :: acc)) (text ++ [Char.ofNat 34]) := by
      simp [tokens, hquote, ascii, hascii]
    rw [List.cons_append, hc, ih htext, List.reverse_cons, List.append_assoc, List.singleton_append]

theorem assembleLine_of_tokens {cs m : List Char} {rest : List Token}
    (h : tokens (.plain []) cs = some (.name m :: rest)) : assembleLine cs = (lineOf m rest).map Line.words := by
  simp only [assembleLine, h]

/-- A line of a mnemonic and one operand name. -/
theorem assembleLine_operand {m op : List Char} (hm : isName m = true) (hop : isName op = true) :
    assembleLine (m ++ ' ' :: op) = (lineOf m [.name op]).map Line.words := by
  apply assembleLine_of_tokens
  rw [tokens_name_space hm, tokens_only_name hop]
  rfl

/-- A line of a mnemonic and a double-quoted string. -/
theorem assembleLine_string {m text : List Char} (hm : isName m = true)
    (htext : ∀ c ∈ text, c.toNat < 128 ∧ c.toNat ≠ 34) :
    assembleLine (m ++ ' ' :: Char.ofNat 34 :: (text ++ [Char.ofNat 34]))
      = (lineOf m [.text text]).map Line.words := by
  have hopen : ∀ cs, tokens (.plain []) (Char.ofNat 34 :: cs) = tokens (.string []) cs := fun _ => rfl
  apply assembleLine_of_tokens
  rw [tokens_name_space hm, hopen, tokens_string htext]
  rfl

theorem words_key (bytes : List Byte) :
    (Line.key bytes).words = bytes.map fun b => BitVec.ofNat 16 (0x0100 + b.toNat) := List.map_map

theorem words_data (bytes : List Byte) :
    (Line.data bytes).words = bytes.map fun b => BitVec.ofNat 16 (0x0300 + b.toNat) := List.map_map

theorem words_kstr (n : Nat) : (Line.kstr n).words = List.replicate n 0x0300 := List.map_replicate

theorem words_apply (k d : List Byte) :
    (Line.apply k d).words = (Line.key k).words ++ [0x0200] ++ (Line.data d).words ++ [0x0400] := by
  simp only [Line.words, Line.commands, List.map_append]
  rfl

theorem commands_apply (k d : List Byte) : (Line.apply k d).commands = keyCommands k ++ dataCommands d := by
  simp [Line.commands, keyCommands, dataCommands]

/-- The byte of an ASCII character is its code (R52). -/
theorem toNat_ascii {c : Char} (h : c.toNat < 128) : (BitVec.ofNat 8 c.toNat).toNat = c.toNat := by
  rw [BitVec.toNat_ofNat]
  exact Nat.mod_eq_of_lt (by omega)

/-- The words of the codes of a string, with the opcode in the bits above. -/
theorem map_codes {text : List Char} (htext : ∀ c ∈ text, c.toNat < 128) (op : Nat) :
    ((text.map fun c => BitVec.ofNat 8 c.toNat).map fun b => BitVec.ofNat 16 (op + b.toNat))
      = text.map fun c => BitVec.ofNat 16 (op + c.toNat) := by
  rw [List.map_map]
  exact List.map_congr_left fun c hc => by rw [Function.comp_apply, toNat_ascii (htext c hc)]

theorem assembleLine_key_string {text : List Char} (h : ∀ c ∈ text, c.toNat < 128 ∧ c.toNat ≠ 34) :
    assembleLine (['K', 'E', 'Y', ' ', Char.ofNat 34] ++ text ++ [Char.ofNat 34])
      = some (text.map fun c => BitVec.ofNat 16 (0x0100 + c.toNat)) := by
  rw [← map_codes (fun c hc => (h c hc).1), ← words_key]
  exact assembleLine_string (m := ['K', 'E', 'Y']) (by decide) h

theorem assembleLine_data_string {text : List Char} (h : ∀ c ∈ text, c.toNat < 128 ∧ c.toNat ≠ 34) :
    assembleLine (['D', 'A', 'T', 'A', ' ', Char.ofNat 34] ++ text ++ [Char.ofNat 34])
      = some (text.map fun c => BitVec.ofNat 16 (0x0300 + c.toNat)) := by
  rw [← map_codes (fun c hc => (h c hc).1), ← words_data]
  exact assembleLine_string (m := ['D', 'A', 'T', 'A']) (by decide) h

/-- Settles O6: each expansion is its table row, and a string is read as the bytes of its codes. -/
theorem pseudoInstructionsExpand : Obligations.PseudoInstructionsExpand := by
  refine ⟨words_key, words_data, words_kstr, words_apply, commands_apply, fun text h => ?_, by decide⟩
  have htext : ∀ c ∈ text, c.toNat < 128 ∧ c.toNat ≠ 34 := fun c hc => ⟨(h c hc).1, (h c hc).2.1⟩
  exact ⟨assembleLine_key_string htext, assembleLine_data_string htext⟩

/-! ### The listing -/

theorem digitValue_hexDigit {n : Nat} (h : n < 16) : digitValue (hexDigit n) = some n := by
  have : ∀ n < 16, digitValue (hexDigit n) = some n := by decide
  exact this n h

theorem nameChar_hexDigit {n : Nat} (h : n < 16) : nameChar (hexDigit n) = true := by
  have : ∀ n < 16, nameChar (hexDigit n) = true := by decide
  exact this n h

theorem digitsValue_hexDigit {n : Nat} (h : n < 16) (acc : Nat) (cs : List Char) :
    digitsValue 16 acc (hexDigit n :: cs) = digitsValue 16 (acc * 16 + n) cs := by
  simp [digitsValue, digitValue_hexDigit h, h]

/-- The digits of a byte spell it (R7). -/
theorem number_hexByte (b : Byte) : number (hexByte b) = some b.toNat := by
  have hb : b.toNat < 256 := b.isLt
  change digitsValue 16 0 [hexDigit (b.toNat / 16), hexDigit (b.toNat % 16)] = _
  rw [digitsValue_hexDigit (by omega), digitsValue_hexDigit (by omega), digitsValue]
  congr 1
  omega

theorem number_hexWord (w : Word) : number (hexWord w) = some w.toNat := by
  have hw : w.toNat < 65536 := w.isLt
  change digitsValue 16 0 [hexDigit (w.toNat / 4096), hexDigit (w.toNat / 256 % 16), hexDigit (w.toNat / 16 % 16),
    hexDigit (w.toNat % 16)] = _
  rw [digitsValue_hexDigit (by omega), digitsValue_hexDigit (by omega), digitsValue_hexDigit (by omega),
    digitsValue_hexDigit (by omega), digitsValue]
  congr 1
  omega

theorem boundedNumber_of_number {n : Nat} {v : BitVec n} {cs : List Char} (h : number cs = some v.toNat) :
    boundedNumber n cs = some v := by
  simp [boundedNumber, h, v.isLt]

theorem isName_hexByte (b : Byte) : isName (hexByte b) = true := by
  have hb : b.toNat < 256 := b.isLt
  refine isName_iff.2 ⟨nofun, ?_⟩
  simp only [hexByte, List.forall_mem_cons]
  exact ⟨by decide, by decide, nameChar_hexDigit (by omega), nameChar_hexDigit (by omega), nofun⟩

theorem isName_hexWord (w : Word) : isName (hexWord w) = true := by
  have hw : w.toNat < 65536 := w.isLt
  refine isName_iff.2 ⟨nofun, ?_⟩
  simp only [hexWord, List.forall_mem_cons]
  exact ⟨by decide, by decide, nameChar_hexDigit (by omega), nameChar_hexDigit (by omega),
    nameChar_hexDigit (by omega), nameChar_hexDigit (by omega), nofun⟩

theorem lineOf_keyb (b : Byte) : lineOf ['K', 'E', 'Y', 'B'] [.name (hexByte b)] = some (.command (.keyb b)) := by
  simp [lineOf, byteOperand, boundedNumber_of_number (number_hexByte b)]

theorem lineOf_xorb (b : Byte) : lineOf ['X', 'O', 'R', 'B'] [.name (hexByte b)] = some (.command (.xorb b)) := by
  simp [lineOf, byteOperand, boundedNumber_of_number (number_hexByte b)]

theorem lineOf_word (w : Word) : lineOf ['.', 'w', 'o', 'r', 'd'] [.name (hexWord w)] = some (.rawWord w) := by
  simp [lineOf, boundedNumber_of_number (number_hexWord w)]

theorem assembleLine_keyb (b : Byte) :
    assembleLine (['K', 'E', 'Y', 'B', ' '] ++ hexByte b) = some [encode (.keyb b)] :=
  (assembleLine_operand (m := ['K', 'E', 'Y', 'B']) (by decide) (isName_hexByte b)).trans
    (congrArg (Option.map Line.words) (lineOf_keyb b))

theorem assembleLine_xorb (b : Byte) :
    assembleLine (['X', 'O', 'R', 'B', ' '] ++ hexByte b) = some [encode (.xorb b)] :=
  (assembleLine_operand (m := ['X', 'O', 'R', 'B']) (by decide) (isName_hexByte b)).trans
    (congrArg (Option.map Line.words) (lineOf_xorb b))

/-- `.word` emits the word as given (R54). -/
theorem assembleLine_word (w : Word) : assembleLine (['.', 'w', 'o', 'r', 'd', ' '] ++ hexWord w) = some [w] :=
  (assembleLine_operand (m := ['.', 'w', 'o', 'r', 'd']) (by decide) (isName_hexWord w)).trans
    (congrArg (Option.map Line.words) (lineOf_word w))

theorem listing_encode_keyb (b : Byte) : listing (encode (.keyb b)) = ['K', 'E', 'Y', 'B', ' '] ++ hexByte b := by
  simp [listing, decode_eq_command.2 rfl]

theorem listing_encode_xorb (b : Byte) : listing (encode (.xorb b)) = ['X', 'O', 'R', 'B', ' '] ++ hexByte b := by
  simp [listing, decode_eq_command.2 rfl]

theorem listing_illegal {w : Word} (h : decode w = .illegal) :
    listing w = ['.', 'w', 'o', 'r', 'd', ' '] ++ hexWord w := by
  simp [listing, h]

/-- Assembling the listing of a word gives the word, whatever the word decodes to (R54). -/
theorem assembleLine_listing (w : Word) : assembleLine (listing w) = some [w] := by
  cases h : decode w with
  | illegal => rw [listing_illegal h, assembleLine_word]
  | command c =>
    obtain rfl := decode_eq_command.1 h
    cases c with
    | keyb b => rw [listing_encode_keyb, assembleLine_keyb]
    | ksa => decide
    | xorb b => rw [listing_encode_xorb, assembleLine_xorb]
    | endInvocation => decide

/-- Settles O7: a canonical line assembles to the one word it lists. -/
theorem listingAndAssemblerAgree : Obligations.ListingAndAssemblerAgree := by
  refine ⟨listing_encode_keyb, listing_encode_xorb, by decide, by decide, fun _ => listing_illegal, by decide,
    by decide, by decide, assembleLine_word, assembleLine_listing, ?_⟩
  rintro _ v w rfl h
  rw [assembleLine_listing, Option.some.injEq, List.singleton_inj] at h
  rw [h]

end Sys2Proof.Asm
end

section
/-! Proofs of the statements of 40_key_schedule.md: the commands `KEYB` and `KSA`, one round, and the key bytes used. -/

namespace Sys2Proof.Machine

/-! ### KEYB and KSA -/

@[simp] theorem sRead_respond (r : Response) (s : State) : sRead (respond r s) = sRead s := sRead_congr rfl rfl

@[simp] theorem kRead_respond (r : Response) (s : State) : kRead (respond r s) = kRead s := kRead_congr rfl rfl

@[simp] theorem sRead_appendKeyByte (b : Byte) (s : State) : sRead (appendKeyByte b s) = sRead s := sRead_congr rfl rfl

/-- A command not accepted in the phase writes nothing and answers `E_SEQUENCE` (R72, R87). -/
theorem exec_refused_next {c : Instr} {s : State} (h : accepts s.PHASE c = false) :
    exec c s = .next { s with responses := s.responses ++ [0x0300] } :=
  (exec_refused h).trans (raise_sequenceError s)

/-- With room, the entry a `KEYB` writes is `K[KLEN]`, and every other entry reads as before (R56). -/
theorem kRead_appendKeyByte {s : State} (hr : keyHasRoom s.KLEN = true) (b a : Byte) :
    kRead (appendKeyByte b s) a = if a.toNat = s.KLEN.toNat then b else kRead s a := by
  have hK : kRead (appendKeyByte b s) = kRead (kWrite (storeAddress s.KLEN) b s) := kRead_congr rfl rfl
  rw [hK, kRead_kWrite, ← storeAddress_toNat hr]
  simp only [BitVec.toNat_inj]

/-- Settles O20: the phase check first, then whether the buffer has room. -/
theorem keybFollowsItsRule : Obligations.KeybFollowsItsRule := by
  refine fun b s => ⟨fun hp => ?_, fun hp hlt => ?_, fun hp hge => ?_⟩
  · exact exec_refused_next (by rw [hp]; rfl)
  · have hr : keyHasRoom s.KLEN = true := keyHasRoom_true.2 hlt
    refine ⟨_, exec_keyb_store hp hr, nextKeyLength_toNat hr, fun a => ?_, fun a => ?_, rfl, rfl, rfl, rfl, rfl, rfl⟩
    · rw [kRead_respond, kRead_appendKeyByte hr]
    · rw [sRead_respond, sRead_appendKeyByte]
  · rw [exec_keyb_overflow hp (keyHasRoom_false.2 hge)]
    rfl

/-- Settles O21: the phase check first, then the key-length check; a valid key leaves the schedule on the key held. -/
theorem ksaFollowsItsRule : Obligations.KsaFollowsItsRule := by
  refine fun s => ⟨fun hp => ?_, fun hp hk => ?_, fun hp h1 _ hovf => ?_⟩
  · exact exec_refused_next (by rw [hp]; rfl)
  · exact ⟨_, (exec_ksa_invalid hp (keyInvalid_true.2 hk)).trans (raise_invalidKey s), rfl, rfl, hp,
      congrFun (sRead_congr rfl rfl), rfl, rfl, rfl, rfl, rfl⟩
  · obtain ⟨u, hu, he⟩ := exec_ksa_build hp (keyInvalid_false.2 ⟨h1, hovf⟩)
    refine ⟨_, he, fun a => ?_, rfl, rfl, rfl, rfl, rfl, hu.commands, ?_⟩
    · rw [sRead_respond, hu.sRead_enterRun, heldKey]
    · rw [respond_responses, enterRun_responses, hu.responses]
      rfl

/-! ### A key written twice -/

/-- The schedule reads a key through `keyByte` alone (R58, R59). -/
theorem ksaAfter_congr {key key' : List Byte} (h : ∀ ii, Rc4.keyByte key ii = Rc4.keyByte key' ii) (r : Nat) :
    Rc4.ksaAfter key r = Rc4.ksaAfter key' r := by
  induction r with
  | zero => rfl
  | succ r ih => simp only [Rc4.ksaAfter, Rc4.ksaRound, ih, h]

/-- The second half of a key written twice repeats the first. -/
theorem getD_append_self (key : List Byte) {m : Nat} (hm : m < key.length + key.length) :
    (key ++ key).getD m 0 = key.getD (m % key.length) 0 := by
  by_cases h : m < key.length
  · rw [List.getD_append _ _ _ _ h, Nat.mod_eq_of_lt h]
  · rw [List.getD_append_right _ _ _ _ (by omega), Nat.mod_eq_sub_mod (by omega), Nat.mod_eq_of_lt (by omega)]

theorem keyByte_append_self {key : List Byte} (h1 : 1 ≤ key.length) (ii : Nat) :
    Rc4.keyByte (key ++ key) ii = Rc4.keyByte key ii := by
  have hlt : ii % (key.length + key.length) < key.length + key.length := Nat.mod_lt _ (by omega)
  rw [Rc4.keyByte, List.length_append, getD_append_self key hlt,
    Nat.mod_mod_of_dvd ii (Dvd.intro_left 2 (Nat.two_mul _)), Rc4.keyByte]

/-- Settles O27: the two keys give every round the same key byte. -/
theorem aKeyWrittenTwiceGivesTheSameSchedule : Obligations.AKeyWrittenTwiceGivesTheSameSchedule :=
  fun _ h1 _ => congrArg Prod.fst (ksaAfter_congr (keyByte_append_self h1) 256)

/-! ### How often each key byte is used -/

/-- `ceil((n - a) / len)` by quotient and remainder: one more than `n / len` just when `a` lies below the remainder. -/
theorem ceilDiv_sub_eq {n a len : Nat} (ha : a < len) (hn : a ≤ n) :
    (n - a + (len - 1)) / len = n / len + if a < n % len then 1 else 0 := by
  have hdiv : n % len + len * (n / len) = n := Nat.mod_add_div n len
  have hmod : n % len < len := Nat.mod_lt n (by omega)
  have hsum : n - a + (len - 1) = n % len + (len - 1) - a + len * (n / len) := by omega
  rw [hsum, Nat.add_mul_div_left _ _ (by omega), Nat.add_comm]
  congr 1
  split
  · exact Nat.div_eq_of_lt_le (by omega) (by omega)
  · exact Nat.div_eq_of_lt (by omega)

/-- The numbers below `n` that leave the remainder `a` (R61). -/
theorem length_filter_range_mod {n a len : Nat} (ha : a < len) (hn : a ≤ n) :
    ((List.range n).filter fun ii => ii % len == a).length = (n - a + (len - 1)) / len := by
  have hmod : a % len = a := Nat.mod_eq_of_lt ha
  have hcount := Nat.count_modEq_card n (r := len) (by omega) a
  rw [Nat.count, hmod] at hcount
  rw [ceilDiv_sub_eq ha hn, ← hcount, List.countP_eq_length_filter]
  simp only [Nat.ModEq, hmod, beq_eq_decide]

/-- Settles O28: the key index is the remainder by the key length, and counting remainders counts the uses. -/
theorem keyBytesAreUsedInTurn : Obligations.KeyBytesAreUsedInTurn := by
  intro len h1 h256
  simp only [keyAddress_toNat h1 h256]
  refine ⟨fun ii _ => Nat.mod_lt ii h1, ?_, ?_, fun a ha => length_filter_range_mod ha (by omega)⟩
  · rintro rfl ii hii
    exact Nat.mod_eq_of_lt hii
  · rintro rfl ii -
    exact Nat.mod_one ii

/-! ### One round -/

theorem ksaRound_fst (key : List Byte) (ii : Nat) (c : Rc4.SBox × Byte) :
    (Rc4.ksaRound key ii c).1 = Rc4.exchange c.1 (byteMod ii) (Rc4.ksaRound key ii c).2 := rfl

theorem ksaRound_snd_toNat (key : List Byte) (ii : Nat) (c : Rc4.SBox × Byte) :
    (Rc4.ksaRound key ii c).2.toNat
      = (c.2.toNat + (c.1 (byteMod ii)).toNat + (key.getD (ii % key.length) 0).toNat) % 256 := byteMod_toNat _

/-- Settles O25: a round is the exchange at its new index; the four worked rounds are evaluated. -/
theorem ksaRoundFollowsItsRule : Obligations.KsaRoundFollowsItsRule := by
  refine ⟨fun key S jj ii _ _ _ => ⟨?_, ksaRound_snd_toNat key ii (S, jj), ?_⟩, by decide⟩
  · have hjj : jj.toNat < 256 := jj.isLt
    have hS : (S (byteMod ii)).toNat < 256 := (S (byteMod ii)).isLt
    have hkey : (key.getD (ii % key.length) 0).toNat < 256 := (key.getD (ii % key.length) 0).isLt
    omega
  · rw [ksaRound_fst]
    exact ⟨exchange_left _ _ _, exchange_right _ _ _, fun _ => exchange_other _⟩

end Sys2Proof.Machine
end

section
/-! Proofs of the statements of 41_prga.md: the command `XORB`, the lookup after the swap, the keystream, the index `i`. -/

namespace Sys2Proof.Machine

/-! ### XORB -/

/-- Settles O29: the phase check first; then the round of the context held, with the response read after the swap. -/
theorem xorbFollowsItsRule : Obligations.XorbFollowsItsRule := by
  refine fun b s => ⟨fun hp => exec_refused_next (by rw [hp]; rfl), fun hp => ?_⟩
  refine ⟨_, exec_xorb_run hp, nextI_toNat s.i, nextJ_toNat s.j _, ?_⟩
  simp only [sRead_respond, respond_i, respond_j]
  refine ⟨?_, ?_, fun a hi hj => ?_, (contextOf_xorbWrites s).symm, rfl, congrFun (kRead_congr rfl rfl),
    rfl, rfl, rfl, rfl, rfl⟩
  · rw [sRead_xorbWrites, exchange_left]
  · rw [sRead_xorbWrites, exchange_right]
  · rw [sRead_xorbWrites, exchange_other _ hi hj]

/-! ### The lookup and the swap -/

/-- An exchange in a memory without repeated bytes changes exactly the two entries, when they differ (R35, R65). -/
theorem exchange_ne_iff {S : Rc4.SBox} (hS : Function.Injective S) (a b x : Byte) :
    Rc4.exchange S a b x ≠ S x ↔ (x = a ∨ x = b) ∧ a ≠ b := by
  by_cases ha : x = a
  · subst ha
    rw [exchange_left, hS.ne_iff]
    simp [ne_comm]
  · by_cases hb : x = b
    · subst hb
      rw [exchange_right, hS.ne_iff]
      simp
    · simp [exchange_other S ha hb, ha, hb]

/-- Settles O30: the swap exchanges the summands, and changes what `t` finds only where it changes an entry. -/
theorem lookupMustFollowTheSwap : Obligations.LookupMustFollowTheSwap := by
  refine fun S i j hS => ⟨?_, exchange_ne_iff hS.injective i j _⟩
  rw [exchange_left, exchange_right, Nat.add_comm]

/-! ### The keystream -/

/-- The loop of `apply` is a keystream of its context, drawn without the data, xor the data (R66, R76). -/
theorem process_eq_zipWith (c : Rc4.Context) (data : List Byte) :
    Rc4.process c data = List.zipWith (· ^^^ ·) data (Rc4.keystreamFrom data.length c) := by
  induction data generalizing c with
  | nil => rfl
  | cons d ds ih => rw [Rc4.process, ih, List.length_cons, Rc4.keystreamFrom, List.zipWith_cons_cons]

/-- Settles O31: the operand enters only the response, and there only the xor with the keystream byte. -/
theorem keystreamDoesNotReadTheData : Obligations.KeystreamDoesNotReadTheData := by
  refine ⟨fun s hp => ?_, fun s t hp ht => ?_, xorByte_xorByte_cancel, process_eq_zipWith⟩
  · exact ⟨keystreamByte (xorbWrites s), xorbWrites s, fun b => exec_xorb_run hp⟩
  · rw [exec_xorb_run hp, complete_next, keystreamByte_xorbWrites] at ht
    rw [← ht, respond_responses, BitVec.ofNat_eq_ofNat, BitVec.zero_xor]
    rfl

/-! ### The index `i` -/

theorem performed_xorb (b : Byte) {s : State} (hp : s.PHASE = .phRun) :
    performed (.command (encode (.xorb b))) s
      = respond (.data (b ^^^ keystreamByte (xorbWrites (counted s)))) (xorbWrites (counted s)) := by
  rw [performed_command (decode_eq_command.2 rfl)]
  exact execState_eq (exec_xorb_run (s := counted s) hp)

theorem performed_xorb_PHASE (b : Byte) {s : State} (hp : s.PHASE = .phRun) :
    (performed (.command (encode (.xorb b))) s).PHASE = .phRun := by
  rw [performed_xorb b hp]
  exact hp

theorem performed_xorb_i (b : Byte) {s : State} (hp : s.PHASE = .phRun) :
    (performed (.command (encode (.xorb b))) s).i = nextI s.i := by
  rw [performed_xorb b hp]
  rfl

theorem performedAll_xorb_PHASE (data : List Byte) {s : State} (hp : s.PHASE = .phRun) :
    (performedAll (commandEvents (data.map .xorb)) s).PHASE = .phRun := by
  induction data generalizing s with
  | nil => exact hp
  | cons d ds ih => exact ih (performed_xorb_PHASE d hp)

/-- Each data byte advances `i` by 1 modulo 256 (R67, R69). -/
theorem performedAll_xorb_i (data : List Byte) {s : State} (hp : s.PHASE = .phRun) :
    (performedAll (commandEvents (data.map .xorb)) s).i.toNat = (s.i.toNat + data.length) % 256 := by
  induction data generalizing s with
  | nil => exact (Nat.mod_eq_of_lt s.i.isLt).symm
  | cons d ds ih =>
    calc (performedAll (commandEvents ((d :: ds).map .xorb)) s).i.toNat
        = ((nextI s.i).toNat + ds.length) % 256 := by
          rw [← performed_xorb_i d hp]
          exact ih (performed_xorb_PHASE d hp)
      _ = (s.i.toNat + (d :: ds).length) % 256 := by
          rw [nextI_toNat, List.length_cons]
          omega

/-- Settles O32: with `i = 0` before, the count of data bytes is `i`, modulo 256. -/
theorem indexCountsTheDataBytes : Obligations.IndexCountsTheDataBytes := by
  intro s data hp hc hi
  rw [afterEvents_eq hc]
  refine ⟨?_, performedAll_xorb_PHASE data hp⟩
  rw [performedAll_xorb_i data hp, hi, BitVec.ofNat_eq_ofNat, BitVec.toNat_zero, Nat.zero_add]

end Sys2Proof.Machine
end

section
/-! Proofs of the statements of 42_control.md: the command `END`, the phase transitions, and the grammar of commands. -/

namespace Sys2Proof.Machine

/-! ### END and PHASE -/

/-- Settles O33, by the writes of `END`. -/
theorem endFollowsItsRule : Obligations.EndFollowsItsRule := fun s => ⟨_, exec_end s, rfl, rfl, rfl, rfl, rfl⟩

theorem execState_end_PHASE (s : State) : (execState .endInvocation s).PHASE = .phKey := rfl

/-- The one command that enters `PH_RUN`: a `KSA` in `PH_KEY` with a valid key (R57, R71). -/
theorem execState_ksa_PHASE (s : State) : (execState .ksa s).PHASE =
    if s.PHASE = .phKey ∧ 1 ≤ s.KLEN.toNat ∧ s.KOVF = false then .phRun else s.PHASE := by
  have hc := exec_cases .ksa s
  rw [exec_eq] at hc
  generalize execState .ksa s = t at hc ⊢
  cases hc with
  | refused hr =>
    have hp : s.PHASE ≠ .phKey := fun hp => by simp [hp, accepts] at hr
    exact (if_neg fun h => hp h.1).symm
  | invalidKey _ hk =>
    have hbad : ¬(1 ≤ s.KLEN.toNat ∧ s.KOVF = false) := by simp [← keyInvalid_false, hk]
    exact (if_neg fun h => hbad h.2).symm
  | build hp hk _ _ => exact (if_pos ⟨hp, keyInvalid_false.1 hk⟩).symm

/-- `KEYB` and `XORB` leave `PHASE`, accepted or refused (R71). -/
theorem execState_PHASE_of_ne {c : Instr} (s : State) (hend : c ≠ .endInvocation) (hksa : c ≠ .ksa) :
    (execState c s).PHASE = s.PHASE := by
  have hc := exec_cases c s
  rw [exec_eq] at hc
  generalize execState c s = t at hc ⊢
  cases hc with
  | refused _ => rfl
  | store _ _ _ => rfl
  | overflow _ _ _ => rfl
  | invalidKey _ _ => exact absurd rfl hksa
  | build _ _ _ _ => exact absurd rfl hksa
  | round _ _ => rfl
  | finish => exact absurd rfl hend

@[simp] theorem withPending_PHASE (q : List HostEvent) (s : State) : (withPending q s).PHASE = s.PHASE := rfl

/-- Settles O35: the event a step performs is a reset or a word, and a word that spells a command is performed as it. -/
theorem phaseMovesOnlyAsTheTable : Obligations.PhaseMovesOnlyAsTheTable := by
  intro s t hstep
  rcases step_next_cases hstep with ⟨hidle, rfl⟩ | ⟨e, rest, hc, rfl⟩
  · simp [hidle]
  rw [hc, withPending_PHASE]
  refine ⟨nofun, ?_, ?_⟩
  · rintro _ ⟨rfl, rfl⟩
    rfl
  · rintro w _ ⟨rfl, rfl⟩
    refine ⟨fun hw => ?_, fun hw => ?_, fun hend hksa => ?_⟩
    · rw [performed_command hw, execState_end_PHASE]
    · rw [performed_command hw, execState_ksa_PHASE]
      exact ⟨fun hvalid => if_pos hvalid, fun hvalid => if_neg hvalid⟩
    · cases hw : decode w with
      | illegal => rw [performed_illegal hw]; rfl
      | command c =>
        rw [performed_command hw]
        exact execState_PHASE_of_ne (counted s) (fun h => hend (by rw [hw, h])) (fun h => hksa (by rw [hw, h]))

/-! ### The commands refused -/

/-- The three refused cells of the table for R72. -/
theorem accepts_eq_false_iff {p : Phase} {c : Instr} : accepts p c = false ↔
    (p = .phRun ∧ ((∃ b, c = .keyb b) ∨ c = .ksa)) ∨ (p = .phKey ∧ ∃ b, c = .xorb b) := by
  cases p <;> cases c <;> simp [accepts]

/-- `END` is accepted in both phases (R70). -/
theorem accepts_end (p : Phase) : accepts p .endInvocation = true := by
  cases p <;> rfl

/-- `E_SEQUENCE` is the one response with status `0x03` (R49, R85). -/
theorem responseWord_eq_sequenceError {r : Response} : responseWord r = 0x0300 ↔ r = .error .sequenceError := by
  refine ⟨fun h => ?_, fun h => by rw [h]; rfl⟩
  have hst : responseStatus r = 0x03 := by
    rw [← opField_joinFields (responseStatus r) (responseData r), ← responseWord, h]
    rfl
  cases r with
  | ok => exact absurd hst (by decide)
  | data b => exact absurd hst (by simp [responseStatus])
  | error e =>
    cases e with
    | invalidKey => exact absurd hst (by decide)
    | sequenceError => rfl
    | illegalCommand => exact absurd hst (by decide)

/-- A command is answered `SequenceError` exactly when the phase does not accept it (R72, R87). -/
theorem exists_response_execState (c : Instr) (s : State) :
    ∃ r, (execState c s).responses = s.responses ++ [responseWord r] ∧
      (r = .error .sequenceError ↔ accepts s.PHASE c = false) := by
  have hc := exec_cases c s
  rw [exec_eq] at hc
  generalize execState c s = t at hc ⊢
  cases hc with
  | refused hr => exact ⟨.error .sequenceError, rfl, iff_of_true rfl hr⟩
  | store b hp _ => exact ⟨.ok, rfl, by simp [hp, accepts]⟩
  | overflow b hp _ => exact ⟨.ok, rfl, by simp [hp, accepts]⟩
  | invalidKey hp _ => exact ⟨.error .invalidKey, rfl, by simp [hp, accepts]⟩
  | build hp _ u hu =>
    exact ⟨.ok, by rw [respond_responses, enterRun_responses, hu.responses], by simp [hp, accepts]⟩
  | round b hp => exact ⟨.data _, rfl, by simp [hp, accepts]⟩
  | finish => exact ⟨.ok, rfl, by simp [accepts_end]⟩

/-- The word that answers a command is `E_SEQUENCE` exactly when the phase does not accept it (R72, R87). -/
theorem responses_execState_eq_sequenceError {c : Instr} {s : State} :
    (execState c s).responses = s.responses ++ [0x0300] ↔ accepts s.PHASE c = false := by
  obtain ⟨r, hr, hseq⟩ := exists_response_execState c s
  rw [hr, List.append_cancel_left_eq, List.singleton_inj, responseWord_eq_sequenceError, hseq]

/-! ### Responses to a run of commands -/

theorem performed_encode (c : Instr) (s : State) :
    performed (.command (encode c)) s = execState c (counted s) := performed_command (decode_eq_command.2 rfl) s

/-- What a run of events emits begins with what was emitted before it (R34, R50). -/
theorem responses_prefix_performedAll (es : List HostEvent) (s : State) :
    s.responses <+: (performedAll es s).responses := by
  induction es generalizing s with
  | nil => exact List.prefix_rfl
  | cons e es ih =>
    refine List.IsPrefix.trans ?_ (ih (performed e s))
    cases e with
    | reset => rw [responses_performed_reset]
    | command w =>
      obtain ⟨r, hr, -⟩ := responses_performed_command w s
      exact hr ▸ List.prefix_append _ _

/-- The responses to a run that begins with a command: the word that answers it, then those to the rest. -/
theorem responsesTo_cons {s : State} {e : HostEvent} {v : Word} (hc : s.commands = [])
    (hv : (performed e s).responses = s.responses ++ [v]) (es : List HostEvent) :
    responsesTo (e :: es) s = v :: responsesTo es (performed e s) := by
  obtain ⟨ws, hws⟩ := responses_prefix_performedAll es (performed e s)
  rw [responsesTo, responsesTo, afterEvents_eq hc, afterEvents_eq ((commands_performed e s).trans hc),
    performedAll_cons, ← hws, List.drop_left, hv, List.append_assoc, List.drop_left, List.singleton_append]

/-! ### The grammar -/

/-- The engine stands at a place of the grammar of R72: it runs, or it holds the key bytes offered, with `KOVF` telling
whether they were more than 256. Past 257 the engine forgets their number, which no later command depends on. -/
def StandsAt (s : State) : SequenceState → Prop
  | .offering n => s.PHASE = .phKey ∧ s.KLEN.toNat = min n 256 ∧ (s.KOVF = true ↔ 256 < n)
  | .running => s.PHASE = .phRun

theorem standsAt_sequenceStateOf {s : State} (h : controlInvariant s) : StandsAt s (sequenceStateOf s) := by
  obtain ⟨hlen, hovf, -⟩ := h
  cases hp : s.PHASE with
  | phRun => simp [sequenceStateOf, hp, StandsAt]
  | phKey =>
    cases ho : s.KOVF with
    | true => simp [sequenceStateOf, hp, ho, StandsAt, hovf ho]
    | false => simpa [sequenceStateOf, hp, ho, StandsAt] using hlen

/-- A key is valid when 1 to 256 bytes were offered (R57, R86). -/
theorem StandsAt.keyInvalid_false_iff {s : State} {n : Nat} (h : StandsAt s (.offering n)) :
    keyInvalid s.KLEN s.KOVF = false ↔ Config.keyMin ≤ n ∧ n ≤ Config.keyMax := by
  obtain ⟨-, hlen, hovf⟩ := h
  rw [keyInvalid_false, hlen, Bool.eq_false_iff, ne_eq, hovf, Config.keyMin, Config.keyMax]
  omega

/-- The grammar has a command at a place exactly when the phase accepts it there (R72). -/
theorem StandsAt.after_eq_none_iff {s : State} {q : SequenceState} (h : StandsAt s q) (c : Instr) :
    q.after c = none ↔ accepts s.PHASE c = false := by
  cases q with
  | offering n => cases c <;> simp [SequenceState.after, accepts, h.1]
  | running => cases c <;> simp [SequenceState.after, accepts, show s.PHASE = .phRun from h]

theorem StandsAt.exists_offering {s : State} {q : SequenceState} (h : StandsAt s q) (hp : s.PHASE = .phKey) :
    ∃ n, q = .offering n := by
  cases q with
  | offering n => exact ⟨n, rfl⟩
  | running => exact absurd (hp.symm.trans h) nofun

theorem StandsAt.eq_running {s : State} {q : SequenceState} (h : StandsAt s q) (hp : s.PHASE = .phRun) :
    q = .running := by
  cases q with
  | offering n => exact absurd (hp.symm.trans h.1) nofun
  | running => rfl

/-- An engine that holds no key in `PH_KEY` stands where a command sequence starts. -/
theorem standsAt_start {s : State} (hp : s.PHASE = .phKey) (hlen : s.KLEN = 0) (hovf : s.KOVF = false) :
    StandsAt s (.offering 0) := by
  simp [StandsAt, hp, hlen, hovf]

theorem after_end (q : SequenceState) : q.after .endInvocation = some (.offering 0) := by
  cases q <;> rfl

theorem StandsAt.appendKeyByte {s : State} {n : Nat} (b : Byte) (h : StandsAt s (.offering n))
    (hr : keyHasRoom s.KLEN = true) : StandsAt (appendKeyByte b s) (.offering (n + 1)) := by
  obtain ⟨hp, hlen, hovf⟩ := h
  have hlt := keyHasRoom_true.1 hr
  refine ⟨hp, ?_, hovf.trans ?_⟩
  · rw [appendKeyByte_KLEN, nextKeyLength_toNat hr]
    omega
  · omega

theorem StandsAt.setOverflow {s : State} {n : Nat} (h : StandsAt s (.offering n))
    (hr : keyHasRoom s.KLEN = false) : StandsAt (setOverflow s) (.offering (n + 1)) := by
  obtain ⟨hp, hlen, -⟩ := h
  have hge := keyHasRoom_false.1 hr
  exact ⟨hp, hlen.trans (by omega), iff_of_true rfl (by omega)⟩

/-- A command of the grammar takes the engine to the next place of the grammar. -/
theorem StandsAt.execState {s : State} {q q' : SequenceState} {c : Instr} (h : StandsAt s q)
    (hq : q.after c = some q') : StandsAt (execState c s) q' := by
  have hc := exec_cases c s
  rw [exec_eq] at hc
  generalize Machine.execState c s = t at hc ⊢
  cases hc with
  | refused hr => simp [(h.after_eq_none_iff c).2 hr] at hq
  | store b hp hr =>
    obtain ⟨n, rfl⟩ := h.exists_offering hp
    cases hq
    exact h.appendKeyByte b hr
  | overflow b hp hr =>
    obtain ⟨n, rfl⟩ := h.exists_offering hp
    cases hq
    exact h.setOverflow hr
  | invalidKey hp hk =>
    obtain ⟨n, rfl⟩ := h.exists_offering hp
    rw [SequenceState.after, if_neg (by simp [← h.keyInvalid_false_iff, hk])] at hq
    cases hq
    exact standsAt_start hp rfl rfl
  | build hp hk u hu =>
    obtain ⟨n, rfl⟩ := h.exists_offering hp
    rw [SequenceState.after, if_pos (h.keyInvalid_false_iff.1 hk)] at hq
    cases hq
    rfl
  | round b hp =>
    obtain rfl := h.eq_running hp
    cases hq
    exact hp
  | finish =>
    rw [after_end] at hq
    cases hq
    exact standsAt_start rfl rfl rfl

theorem sequenceWellFormed_cons_none {q : SequenceState} {c : Instr} (h : q.after c = none) (cs : List Instr) :
    sequenceWellFormed q (c :: cs) = false := by
  simp [sequenceWellFormed, h]

theorem sequenceWellFormed_cons_some {q q' : SequenceState} {c : Instr} (h : q.after c = some q') (cs : List Instr) :
    sequenceWellFormed q (c :: cs) = sequenceWellFormed q' cs := by
  simp [sequenceWellFormed, h]

/-- The responses to a run that begins with a command: `E_SEQUENCE` at once when the phase does not accept it, and
otherwise just when the rest is answered so. -/
theorem sequenceError_mem_responsesTo_cons {s : State} (hc : s.commands = []) (c : Instr) (cs : List Instr) :
    (0x0300 : Word) ∈ responsesTo (commandEvents (c :: cs)) s ↔
      accepts s.PHASE c = false ∨ (0x0300 : Word) ∈ responsesTo (commandEvents cs) (execState c (counted s)) := by
  obtain ⟨r, hr, hseq⟩ := exists_response_execState c (counted s)
  have hv : (performed (.command (encode c)) s).responses = s.responses ++ [responseWord r] :=
    (congrArg State.responses (performed_encode c s)).trans hr
  have hcons := responsesTo_cons hc hv (commandEvents cs)
  rw [performed_encode] at hcons
  change (0x0300 : Word) ∈ responsesTo (.command (encode c) :: commandEvents cs) s ↔ _
  rw [hcons, List.mem_cons, eq_comm, responseWord_eq_sequenceError, hseq]
  rfl

/-- From a place of the grammar, the sequences of the grammar are those with no command refused (R72). -/
theorem StandsAt.sequenceWellFormed_iff {s : State} {q : SequenceState} (h : StandsAt s q) (hc : s.commands = [])
    (cs : List Instr) :
    sequenceWellFormed q cs = true ↔ (0x0300 : Word) ∉ responsesTo (commandEvents cs) s := by
  induction cs generalizing s q with
  | nil =>
    have hnil : responsesTo (commandEvents []) s = [] := by
      rw [responsesTo, commandEvents, List.map_nil, afterEvents_eq hc, performedAll_nil, List.drop_length]
    simp [hnil, sequenceWellFormed]
  | cons c cs ih =>
    rw [sequenceError_mem_responsesTo_cons hc, ← h.after_eq_none_iff c]
    cases hq : q.after c with
    | none => simp [sequenceWellFormed_cons_none hq]
    | some q' =>
      have hcounted : StandsAt (counted s) q := by cases q <;> exact h
      have hc' : (Machine.execState c (counted s)).commands = [] := by
        rw [← performed_encode, commands_performed, hc]
      rw [sequenceWellFormed_cons_some hq, ih (hcounted.execState hq) hc']
      simp

/-- Settles O39: the refused cells, then the grammar from the place at which the control invariant puts the engine. -/
theorem unrefusedSequencesAreTheGrammar : Obligations.UnrefusedSequencesAreTheGrammar := by
  refine ⟨fun s t c ht => ?_, fun s cs hinv hc => (standsAt_sequenceStateOf hinv).sequenceWellFormed_iff hc cs⟩
  obtain rfl := execState_eq ht
  rw [responses_execState_eq_sequenceError]
  exact ⟨accepts_eq_false_iff, fun hr => execState_eq (exec_refused_next hr)⟩

end Sys2Proof.Machine
end

section
/-! Proofs of the statements of 43_apply.md: runs of events in parts, `apply`, and the host's command sequence. -/

namespace Sys2Proof.Machine

/-! ### Runs in parts -/

theorem commands_afterEvents {s : State} (hc : s.commands = []) (es : List HostEvent) :
    (afterEvents es s).commands = [] := by
  rw [afterEvents_eq hc, commands_performedAll hc]

theorem afterEvents_append {s : State} (hc : s.commands = []) (es fs : List HostEvent) :
    afterEvents (es ++ fs) s = afterEvents fs (afterEvents es s) := by
  rw [afterEvents_eq (commands_afterEvents hc es), afterEvents_eq hc, afterEvents_eq hc, performedAll_append]

/-- After a run the response stream is the earlier one and the responses to the run (R34, R50). -/
theorem responses_afterEvents {s : State} (hc : s.commands = []) (es : List HostEvent) :
    (afterEvents es s).responses = s.responses ++ responsesTo es s := by
  obtain ⟨ws, hws⟩ := responses_prefix_performedAll es s
  rw [responsesTo, afterEvents_eq hc, ← hws, List.drop_left]

theorem responsesTo_append {s : State} (hc : s.commands = []) (es fs : List HostEvent) :
    responsesTo (es ++ fs) s = responsesTo es s ++ responsesTo fs (afterEvents es s) := by
  have hall := responses_afterEvents hc (es ++ fs)
  rw [afterEvents_append hc, responses_afterEvents (commands_afterEvents hc es), responses_afterEvents hc,
    List.append_assoc] at hall
  exact (List.append_cancel_left hall).symm

/-- Any number of steps with nothing pending changes nothing (R9). -/
theorem run_idle {s : State} (hc : s.commands = []) (n : Nat) : Host.Core.run Sys2Proof.core n s = .next s := by
  induction n with
  | zero => rfl
  | succ n ih => rw [run_succ_of_next (step_idle hc), ih]

/-- Settles O48: a run of events is a fold over them, and between two runs nothing is pending. -/
theorem chunkBoundariesChangeNothing : Obligations.ChunkBoundariesChangeNothing := fun _ es fs hc =>
  ⟨responsesTo_append hc es fs, afterEvents_append hc es fs, run_idle (commands_afterEvents hc es)⟩

theorem commandEvents_append (cs ds : List Instr) :
    commandEvents (cs ++ ds) = commandEvents cs ++ commandEvents ds := List.map_append

theorem responsesTo_nil {s : State} (hc : s.commands = []) : responsesTo [] s = [] := by
  rw [responsesTo, afterEvents_eq hc, performedAll_nil, List.drop_length]

theorem afterEvents_command {s : State} (hc : s.commands = []) (c : Instr) :
    afterEvents (commandEvents [c]) s = execState c (counted s) :=
  (afterEvents_eq hc _).trans (performed_encode c s)

/-- The response to one command is the word it emits (R50). -/
theorem responsesTo_command {s t : State} {c : Instr} {r : Response} (hc : s.commands = [])
    (h : execState c (counted s) = respond r t) (ht : t.responses = s.responses) :
    responsesTo (commandEvents [c]) s = [responseWord r] := by
  rw [responsesTo, afterEvents_command hc, h, respond_responses, ht, List.drop_left]

/-! ### After END -/

/-- `END` leaves the starting state (R70, R77). -/
theorem startState_afterEvents_end {s : State} (hc : s.commands = []) :
    startState (afterEvents (commandEvents [.endInvocation]) s) :=
  ⟨by rw [afterEvents_command hc]; exact ⟨rfl, rfl, rfl⟩, commands_afterEvents hc _⟩

theorem responsesTo_end {s : State} (hc : s.commands = []) :
    responsesTo (commandEvents [.endInvocation]) s = [0x0000] :=
  responsesTo_command hc (execState_eq (exec_end _)) rfl

/-- Settles O43: `END` and reset both leave the starting state, in which nothing but the control state is live. -/
theorem endLeavesNoTrace : Obligations.EndLeavesNoTrace := by
  intro s hc events
  obtain ⟨hend, hpending⟩ := startState_afterEvents_end hc
  exact responsesTo_eq_of_liveAlike (liveAlike_of_key_cleared hend ⟨rfl, rfl, rfl⟩) hpending rfl events

/-! ### The whole-buffer operation -/

theorem apply_of_valid {key : List Byte} (h1 : 1 ≤ key.length) (h256 : key.length ≤ 256) (data : List Byte) :
    Rc4.apply data key = .ok (Rc4.process (Rc4.start key) data) := if_neg (by omega)

theorem apply_of_invalid {key : List Byte} (h : key.length = 0 ∨ 257 ≤ key.length) (data : List Byte) :
    Rc4.apply data key = .error .invalidKey := if_pos h

/-- Settles O47: the two branches of `apply`. -/
theorem keyBoundsAreOneTo256 : Obligations.KeyBoundsAreOneTo256 :=
  fun data _ => ⟨fun h => apply_of_invalid h data, fun h1 h256 => ⟨_, apply_of_valid h1 h256 data⟩⟩

theorem length_process (c : Rc4.Context) (data : List Byte) : (Rc4.process c data).length = data.length := by
  induction data generalizing c with
  | nil => rfl
  | cons d ds ih => rw [Rc4.process, List.length_cons, ih, List.length_cons]

/-- From one context the loop of `apply` undoes itself: it draws the same keystream again (R79). -/
theorem process_process (c : Rc4.Context) (data : List Byte) : Rc4.process c (Rc4.process c data) = data := by
  induction data generalizing c with
  | nil => rfl
  | cons d ds ih =>
    rw [Rc4.process, Rc4.process, ih]
    exact congrArg (· :: ds) (xorByte_xorByte_cancel d _)

/-- Settles O45: both calls of `apply` run their loop from the context of the key. -/
theorem applyTwiceGivesTheDataBack : Obligations.ApplyTwiceGivesTheDataBack := fun data _ h1 h256 =>
  ⟨_, apply_of_valid h1 h256 data, by rw [apply_of_valid h1 h256, process_process]⟩

theorem length_apply {data key out : List Byte} (h : Rc4.apply data key = .ok out) : out.length = data.length := by
  unfold Rc4.apply at h
  split at h
  · cases h
  · cases h
    exact length_process _ data

/-! ### The data on the engine -/

/-- The engine runs with the cipher context `c`, every entry of `S` stored. -/
structure RunsWith (c : Rc4.Context) (s : State) : Prop where
  phase : s.PHASE = .phRun
  stored : sIsStored s
  context : contextOf s = c

theorem RunsWith.performed_xorb {c : Rc4.Context} {s : State} (h : RunsWith c s) (b : Byte) :
    RunsWith (Rc4.prgaRound c).1 (performed (.command (encode (.xorb b))) s) := by
  obtain ⟨hp, hstored, rfl⟩ := h
  rw [Machine.performed_xorb b hp]
  refine ⟨hp, fun a => isSome_read?_xorbWrites (s := counted s) (hstored a), ?_⟩
  rw [← contextOf_counted hstored, ← contextOf_xorbWrites]
  simp [contextOf]

theorem RunsWith.keystreamByte_eq {c : Rc4.Context} {s : State} (h : RunsWith c s) :
    keystreamByte (xorbWrites (counted s)) = (Rc4.prgaRound c).2 := by
  rw [keystreamByte_xorbWrites, contextOf_counted h.stored, h.context]

/-- The responses to data sent in `PH_RUN`: first the xor with the keystream byte of this state, then the rest. -/
theorem responsesTo_xorb_cons {s : State} (hp : s.PHASE = .phRun) (hc : s.commands = []) (d : Byte) (ds : List Byte) :
    responsesTo (commandEvents ((d :: ds).map .xorb)) s
      = responseWord (.data (d ^^^ keystreamByte (xorbWrites (counted s))))
        :: responsesTo (commandEvents (ds.map .xorb)) (performed (.command (encode (.xorb d))) s) :=
  responsesTo_cons hc (by rw [performed_xorb d hp]; rfl) _

/-- The engine answers the data with the output of the loop of `apply` from the context it holds (R64, R76). -/
theorem RunsWith.responsesTo_xorb {c : Rc4.Context} {s : State} (h : RunsWith c s) (hc : s.commands = [])
    (data : List Byte) :
    responsesTo (commandEvents (data.map .xorb)) s = (Rc4.process c data).map fun b => responseWord (.data b) := by
  induction data generalizing c s with
  | nil => exact responsesTo_nil hc
  | cons d ds ih =>
    rw [responsesTo_xorb_cons h.phase hc, h.keystreamByte_eq,
      ih (h.performed_xorb d) ((commands_performed _ s).trans hc), Rc4.process, List.map_cons]

theorem dataBytes_data_cons (b : Byte) (ws : List Word) :
    dataBytes (responseWord (.data b) :: ws) = b :: dataBytes ws := by
  simp [dataBytes, responseWord, responseStatus, responseData]

/-- The host reads the output from the `DATA` responses and passes over the `OK` that ends them (R77). -/
theorem dataBytes_output (out : List Byte) :
    dataBytes ((out.map fun b => responseWord (.data b)) ++ [0x0000]) = out := by
  induction out with
  | nil => decide
  | cons b bs ih => rw [List.map_cons, List.cons_append, dataBytes_data_cons, ih]

theorem length_dataBytes_responsesTo_xorb (data : List Byte) {s : State} (hp : s.PHASE = .phRun)
    (hc : s.commands = []) :
    (dataBytes (responsesTo (commandEvents (data.map .xorb)) s)).length = data.length := by
  induction data generalizing s with
  | nil => exact congrArg (fun ws => (dataBytes ws).length) (responsesTo_nil hc)
  | cons d ds ih =>
    rw [responsesTo_xorb_cons hp hc, dataBytes_data_cons, List.length_cons,
      ih (performed_xorb_PHASE d hp) ((commands_performed _ s).trans hc), List.length_cons]

/-- Settles O46: the loop of `apply` and the engine both give one byte for each data byte. -/
theorem outputHasTheLengthOfTheInput : Obligations.OutputHasTheLengthOfTheInput :=
  ⟨fun _ _ _ => length_apply, fun _ h1 h256 => apply_of_valid h1 h256 [],
    fun _ data => length_dataBytes_responsesTo_xorb data⟩

/-- The data and `END`: the output, byte for byte, and one `OK` (R78). -/
theorem RunsWith.responsesTo_dataCommands {c : Rc4.Context} {s : State} (h : RunsWith c s) (hc : s.commands = [])
    (data : List Byte) :
    responsesTo (commandEvents (dataCommands data)) s
      = ((Rc4.process c data).map fun b => responseWord (.data b)) ++ [0x0000] := by
  rw [dataCommands, commandEvents_append, responsesTo_append hc, h.responsesTo_xorb hc,
    responsesTo_end (commands_afterEvents hc _)]

theorem startState_afterEvents_dataCommands {s : State} (hc : s.commands = []) (data : List Byte) :
    startState (afterEvents (commandEvents (dataCommands data)) s) := by
  rw [dataCommands, commandEvents_append, afterEvents_append hc]
  exact startState_afterEvents_end (commands_afterEvents hc _)

/-! ### The key on the engine -/

/-- The engine has been offered the bytes of `key` and no others, and has stored as many as it counts. -/
structure Offered (key : List Byte) (s : State) : Prop where
  place : StandsAt s (.offering key.length)
  stored : ∀ a, a < s.KLEN.toNat → s.K.read? a = key[a]?

theorem offered_nil {s : State} (h : resetRelation s) : Offered [] s := by
  obtain ⟨hp, hlen, hovf⟩ := h
  exact ⟨standsAt_start hp hlen hovf, fun a ha => by simp [hlen] at ha⟩

theorem Offered.counted {key : List Byte} {s : State} (h : Offered key s) : Offered key (counted s) :=
  ⟨h.place, h.stored⟩

theorem Offered.appendKeyByte {key : List Byte} {s : State} (h : Offered key s) (b : Byte)
    (hr : keyHasRoom s.KLEN = true) : Offered (key ++ [b]) (appendKeyByte b s) := by
  have hlen : s.KLEN.toNat = key.length := by
    obtain ⟨-, hmin, -⟩ := h.place
    have := keyHasRoom_true.1 hr
    omega
  refine ⟨List.length_append ▸ h.place.appendKeyByte b hr, fun a ha => ?_⟩
  rw [appendKeyByte_KLEN, nextKeyLength_toNat hr] at ha
  rw [appendKeyByte_K, storeAddress_toNat hr, Memory.read?_write]
  split
  · next heq => rw [heq, hlen, List.getElem?_concat_length]
  · next hne => rw [h.stored a (by omega), List.getElem?_append_left (by omega)]

theorem Offered.setOverflow {key : List Byte} {s : State} (h : Offered key s) (b : Byte)
    (hr : keyHasRoom s.KLEN = false) : Offered (key ++ [b]) (setOverflow s) := by
  refine ⟨List.length_append ▸ h.place.setOverflow hr, fun a ha => ?_⟩
  obtain ⟨-, hmin, -⟩ := h.place
  rw [setOverflow_KLEN] at ha
  rw [setOverflow_K, h.stored a ha, List.getElem?_append_left (by omega)]

/-- A `KEYB` offers one byte more, and is answered `OK` whether or not the byte is stored (R56). -/
theorem Offered.execState_keyb {key : List Byte} {s : State} (h : Offered key s) (b : Byte) :
    ∃ t, execState (.keyb b) s = respond .ok t ∧ t.responses = s.responses ∧ Offered (key ++ [b]) (respond .ok t) := by
  obtain ⟨hp, -, -⟩ := h.place
  cases hr : keyHasRoom s.KLEN with
  | true =>
    obtain ⟨hplace, hstored⟩ := h.appendKeyByte b hr
    exact ⟨_, execState_eq (exec_keyb_store hp hr), rfl, hplace, hstored⟩
  | false =>
    obtain ⟨hplace, hstored⟩ := h.setOverflow b hr
    exact ⟨_, execState_eq (exec_keyb_overflow hp hr), rfl, hplace, hstored⟩

/-- Every `KEYB` of a key is answered `OK`, and after them the whole key has been offered (R56, R78). -/
theorem Offered.keybs {pre : List Byte} {s : State} (h : Offered pre s) (hc : s.commands = []) (key : List Byte) :
    responsesTo (commandEvents (key.map .keyb)) s = List.replicate key.length 0x0000 ∧
      Offered (pre ++ key) (afterEvents (commandEvents (key.map .keyb)) s) := by
  induction key generalizing pre s with
  | nil => exact ⟨responsesTo_nil hc, by rw [List.append_nil, afterEvents_eq hc]; exact h⟩
  | cons b bs ih =>
    obtain ⟨t, ht, hresp, hoff⟩ := h.counted.execState_keyb b
    rw [← ht, ← afterEvents_command hc] at hoff
    obtain ⟨hwords, hall⟩ := ih hoff (commands_afterEvents hc _)
    rw [List.map_cons, ← List.singleton_append, commandEvents_append, responsesTo_append hc, afterEvents_append hc,
      responsesTo_command hc ht hresp, hwords]
    exact ⟨rfl, by simpa using hall⟩

/-- A key of at most 256 bytes is held as it was offered (R14). -/
theorem Offered.heldKey_eq {key : List Byte} {s : State} (h : Offered key s) (h256 : key.length ≤ 256) :
    heldKey s = key := by
  obtain ⟨-, hmin, -⟩ := h.place
  have hlen : s.KLEN.toNat = key.length := by omega
  refine List.ext_getElem (by simp [heldKey, hlen]) fun a ha ha' => ?_
  have hread := h.stored a (hlen ▸ ha')
  rw [List.getElem?_eq_getElem ha'] at hread
  simp [heldKey, kRead, Nat.mod_eq_of_lt (ha'.trans_le h256), hread]

/-- `KSA` on a valid key offered: the engine runs with the context that the key gives (R57, R76). -/
theorem Offered.execState_ksa {key : List Byte} {s : State} (h : Offered key s) (h1 : 1 ≤ key.length)
    (h256 : key.length ≤ 256) :
    ∃ t, execState .ksa s = respond .ok t ∧ t.responses = s.responses ∧ RunsWith (Rc4.start key) (respond .ok t) := by
  obtain ⟨hp, -, -⟩ := h.place
  obtain ⟨u, hu, hbuild⟩ := exec_ksa_build hp (h.place.keyInvalid_false_iff.2 ⟨h1, h256⟩)
  refine ⟨_, execState_eq hbuild, hu.responses, rfl, hu.stored, ?_⟩
  simp [contextOf, hu.sRead_enterRun, h.heldKey_eq h256, Rc4.start]

/-- `KSA` on an empty or too long key offered: `E_INVALID_KEY`, and no key held (R57, R86, R91). -/
theorem Offered.execState_ksa_invalid {key : List Byte} {s : State} (h : Offered key s)
    (hk : key.length = 0 ∨ 257 ≤ key.length) :
    ∃ t, execState .ksa s = respond (.error .invalidKey) t ∧ t.responses = s.responses ∧
      resetRelation (respond (.error .invalidKey) t) := by
  obtain ⟨hp, -, -⟩ := h.place
  have hinvalid : keyInvalid s.KLEN s.KOVF = true := by
    rw [← Bool.not_eq_false, h.place.keyInvalid_false_iff, Config.keyMin, Config.keyMax]
    omega
  exact ⟨_, execState_eq (exec_ksa_invalid hp hinvalid), rfl, hp, rfl, rfl⟩

/-- From the starting state the key and `KSA` come down to the `KSA` alone, on an engine offered the key. -/
theorem exists_offered_before_ksa {s : State} (hs : startState s) (key : List Byte) :
    ∃ t, Offered key t ∧ t.commands = [] ∧
      responsesTo (commandEvents (keyCommands key)) s
        = List.replicate key.length 0x0000 ++ responsesTo (commandEvents [.ksa]) t ∧
      afterEvents (commandEvents (keyCommands key)) s = afterEvents (commandEvents [.ksa]) t := by
  obtain ⟨hreset, hc⟩ := hs
  obtain ⟨hwords, hoff⟩ := (offered_nil hreset).keybs hc key
  refine ⟨_, hoff, commands_afterEvents hc _, ?_, ?_⟩
  · rw [keyCommands, commandEvents_append, responsesTo_append hc, hwords]
  · rw [keyCommands, commandEvents_append, afterEvents_append hc]

/-- The key and `KSA`, when the key is valid: one `OK` each, and the engine runs with the key's context (R78). -/
theorem keyCommands_of_valid {s : State} {key : List Byte} (hs : startState s) (h1 : 1 ≤ key.length)
    (h256 : key.length ≤ 256) :
    responsesTo (commandEvents (keyCommands key)) s = List.replicate key.length 0x0000 ++ [0x0000] ∧
      RunsWith (Rc4.start key) (afterEvents (commandEvents (keyCommands key)) s) := by
  obtain ⟨t, hoff, hc, hwords, hafter⟩ := exists_offered_before_ksa hs key
  obtain ⟨u, hu, hresp, hruns⟩ := hoff.counted.execState_ksa h1 h256
  rw [hwords, hafter, responsesTo_command hc hu hresp, afterEvents_command hc, hu]
  exact ⟨rfl, hruns⟩

/-- The key and `KSA`, when the key is empty or too long: one `OK` for each byte, `E_INVALID_KEY`, and the starting
state (R78). -/
theorem keyCommands_of_invalid {s : State} {key : List Byte} (hs : startState s)
    (hk : key.length = 0 ∨ 257 ≤ key.length) :
    responsesTo (commandEvents (keyCommands key)) s = List.replicate key.length 0x0000 ++ [0x0200] ∧
      startState (afterEvents (commandEvents (keyCommands key)) s) := by
  obtain ⟨t, hoff, hc, hwords, hafter⟩ := exists_offered_before_ksa hs key
  obtain ⟨u, hu, hresp, hcleared⟩ := hoff.counted.execState_ksa_invalid hk
  refine ⟨?_, ?_, commands_afterEvents hs.2 _⟩
  · rw [hwords, responsesTo_command hc hu hresp]
    rfl
  · rw [hafter, afterEvents_command hc, hu]
    exact hcleared

/-! ### The host -/

/-- The last word after a run is the last of the responses to it. -/
theorem getLast?_responses_afterEvents {s : State} {es : List HostEvent} {ws : List Word} {w : Word}
    (hc : s.commands = []) (h : responsesTo es s = ws ++ [w]) : (afterEvents es s).responses.getLast? = some w := by
  rw [responses_afterEvents hc, h, ← List.append_assoc, List.getLast?_concat]

theorem hostApply_of_valid {s : State} {key : List Byte} (hs : startState s) (h1 : 1 ≤ key.length)
    (h256 : key.length ≤ 256) (data : List Byte) :
    (hostApply data key s).2 = Rc4.apply data key ∧ startState (hostApply data key s).1 := by
  obtain ⟨hwords, hruns⟩ := keyCommands_of_valid hs h1 h256
  have hc := commands_afterEvents hs.2 (commandEvents (keyCommands key))
  have hok := getLast?_responses_afterEvents hs.2 hwords
  have hhost : hostApply data key s = _ := if_pos hok
  rw [hhost, hruns.responsesTo_dataCommands hc, dataBytes_output, apply_of_valid h1 h256]
  exact ⟨rfl, startState_afterEvents_dataCommands hc data⟩

theorem hostApply_of_invalid {s : State} {key : List Byte} (hs : startState s)
    (hk : key.length = 0 ∨ 257 ≤ key.length) (data : List Byte) :
    (hostApply data key s).2 = Rc4.apply data key ∧ startState (hostApply data key s).1 := by
  obtain ⟨hwords, hstart⟩ := keyCommands_of_invalid hs hk
  have hlast := getLast?_responses_afterEvents hs.2 hwords
  have hhost : hostApply data key s = _ := if_neg (by rw [hlast]; decide)
  rw [hhost, apply_of_invalid hk]
  exact ⟨rfl, hstart⟩

/-- Settles O49: the key, then the data, each from the state the part before it leaves. -/
theorem hostSequenceComputesApply : Obligations.HostSequenceComputesApply := by
  refine fun s data key hs => ⟨fun h1 h256 => ⟨_, apply_of_valid h1 h256 data, ?_, ?_⟩,
    fun hk => ⟨apply_of_invalid hk data, keyCommands_of_invalid hs hk⟩, ?_⟩
  · obtain ⟨hwords, hruns⟩ := keyCommands_of_valid hs h1 h256
    rw [commandEvents_append, responsesTo_append hs.2, hwords,
      hruns.responsesTo_dataCommands (commands_afterEvents hs.2 _), List.replicate_succ']
    simp only [List.append_assoc]
  · rw [commandEvents_append, afterEvents_append hs.2]
    exact startState_afterEvents_dataCommands (commands_afterEvents hs.2 _) data
  · by_cases hk : key.length = 0 ∨ 257 ≤ key.length
    · exact hostApply_of_invalid hs hk data
    · exact hostApply_of_valid hs (by omega) (by omega) data

end Sys2Proof.Machine
end

section
/-! Proofs of the statements of 60_exceptions.md: the three errors, the order of checking, and several engines. -/

namespace Sys2Proof.Machine

/-! ### When InvalidKey is raised -/

/-- An error's code is the status of no other response (R49, R85). -/
theorem responseStatus_eq_errorCode {r : Response} {e : EngineError} :
    responseStatus r = errorCode e ↔ r = .error e := by
  cases r with
  | ok => cases e <;> decide
  | data b => exact iff_of_false (show (0x01 : Byte) ≠ errorCode e by cases e <;> decide) nofun
  | error d => cases d <;> cases e <;> decide

/-- The response word of an error stands for that error alone (R48, R49). -/
theorem responseWord_eq_error {r : Response} {e : EngineError} :
    responseWord r = responseWord (.error e) ↔ r = .error e := by
  refine ⟨fun h => responseStatus_eq_errorCode.1 ?_, fun h => by rw [h]⟩
  calc responseStatus r = opField (responseWord r) := (opField_joinFields _ _).symm
    _ = opField (responseWord (.error e)) := by rw [h]
    _ = errorCode e := opField_joinFields _ _

/-- A command is answered `InvalidKey` exactly when it is `KSA` in `PH_KEY` on an invalid key (R57, R86). -/
theorem exists_response_execState_invalidKey (c : Instr) (s : State) :
    ∃ r, (execState c s).responses = s.responses ++ [responseWord r] ∧
      (r = .error .invalidKey ↔ c = .ksa ∧ s.PHASE = .phKey ∧ keyInvalid s.KLEN s.KOVF = true) := by
  have hc := exec_cases c s
  rw [exec_eq] at hc
  generalize execState c s = t at hc ⊢
  cases hc with
  | refused hr =>
    refine ⟨.error .sequenceError, rfl, iff_of_false nofun ?_⟩
    rintro ⟨rfl, hp, -⟩
    rw [hp] at hr
    cases hr
  | store b _ _ => exact ⟨.ok, rfl, iff_of_false nofun nofun⟩
  | overflow b _ _ => exact ⟨.ok, rfl, iff_of_false nofun nofun⟩
  | invalidKey hp hk => exact ⟨.error .invalidKey, rfl, iff_of_true rfl ⟨rfl, hp, hk⟩⟩
  | build _ hk u hu =>
    exact ⟨.ok, by rw [respond_responses, enterRun_responses, hu.responses], iff_of_false nofun (by simp [hk])⟩
  | round b _ => exact ⟨.data _, rfl, iff_of_false nofun nofun⟩
  | finish => exact ⟨.ok, rfl, iff_of_false nofun nofun⟩

/-- The word that answers a command is `E_INVALID_KEY` exactly for `KSA` in `PH_KEY` on an invalid key (R57, R86). -/
theorem responses_execState_eq_invalidKey {c : Instr} {s : State} :
    (execState c s).responses = s.responses ++ [0x0200] ↔
      c = .ksa ∧ s.PHASE = .phKey ∧ (s.KLEN.toNat = 0 ∨ s.KOVF = true) := by
  obtain ⟨r, hr, hinvalid⟩ := exists_response_execState_invalidKey c s
  have hword : (0x0200 : Word) = responseWord (.error .invalidKey) := rfl
  rw [hr, List.append_cancel_left_eq, List.singleton_inj, hword, responseWord_eq_error, hinvalid, keyInvalid_true]

/-- What `KSA` in `PH_KEY` leaves on an invalid key: the key is cleared, nothing else is written (R86, R91). -/
theorem execState_ksa_invalid {s : State} (hp : s.PHASE = .phKey) (hk : s.KLEN.toNat = 0 ∨ s.KOVF = true) :
    execState .ksa s = { s with KLEN := 0, KOVF := false, K := [], responses := s.responses ++ [0x0200] } :=
  execState_eq ((exec_ksa_invalid hp (keyInvalid_true.2 hk)).trans (raise_invalidKey s))

/-- Settles O22: the one command so answered is `KSA` on an invalid key, which clears the key and writes nothing else; a
key that overflowed has 256 bytes counted, so it is not the empty one. -/
theorem invalidKeyIsRaisedExactlyThen : Obligations.InvalidKeyIsRaisedExactlyThen := by
  refine ⟨fun c s t hexec => ?_, fun s ⟨_, hfull, _⟩ ⟨hempty, hovf⟩ => ?_⟩
  · obtain rfl := execState_eq hexec
    refine ⟨responses_execState_eq_invalidKey, fun hresp => ?_⟩
    obtain ⟨rfl, hp, hk⟩ := responses_execState_eq_invalidKey.1 hresp
    rw [execState_ksa_invalid hp hk]
    exact ⟨rfl, rfl, rfl⟩
  · have := hfull hovf
    omega

/-! ### The order of checking -/

theorem keyb_refused {s : State} (b : Byte) (hp : s.PHASE = .phRun) : accepts s.PHASE (.keyb b) = false := by
  rw [hp, accepts]

theorem ksa_refused {s : State} (hp : s.PHASE = .phRun) : accepts s.PHASE .ksa = false := by
  rw [hp, accepts]

theorem xorb_refused {s : State} (b : Byte) (hp : s.PHASE = .phKey) : accepts s.PHASE (.xorb b) = false := by
  rw [hp, accepts]

@[simp] theorem withPending_responses (q : List HostEvent) (s : State) :
    (withPending q s).responses = s.responses := rfl

/-- Settles O37: an illegal word is answered before any command is looked at; then comes the phase check, and then, in
`PH_KEY`, the key of a `KSA`. -/
theorem errorsAreCheckedInOrder : Obligations.ErrorsAreCheckedInOrder := by
  refine ⟨by decide, by decide, fun s w rest hs => ⟨_, step_performed hs, ?_⟩⟩
  rw [withPending_responses]
  refine ⟨fun hw => ?_, fun b hw hp => ?_, fun b hw hp => ?_, fun hw hp hk => ?_⟩
  · rw [performed_illegal hw]
    rfl
  · rcases hw with hw | hw <;> rw [performed_command hw]
    · exact responses_execState_eq_sequenceError.2 (keyb_refused b hp)
    · exact responses_execState_eq_sequenceError.2 (ksa_refused hp)
  · rw [performed_command hw]
    exact responses_execState_eq_sequenceError.2 (xorb_refused b hp)
  · rw [performed_command hw]
    exact responses_execState_eq_invalidKey.2 ⟨rfl, hp, hk⟩

/-! ### Several engines -/

/-- The state a step leaves. -/
def afterStep (s : State) : State :=
  match s.commands with
  | [] => s
  | e :: rest => withPending rest (performed e s)

theorem step_eq_afterStep (s : State) : step s = .next (afterStep s) := by
  cases hc : s.commands with
  | nil => simp [step_idle hc, afterStep, hc]
  | cons e rest => simp [step_performed hc, afterStep, hc]

/-- A step of the system replaces one entry of the list by the state its step leaves (R97). -/
theorem stepAt_eq_modify (n : Nat) (sys : System) : sys.stepAt n = sys.modify n afterStep := by
  rw [List.modify_eq_set_getElem?, System.stepAt]
  cases h : sys[n]? with
  | none => rfl
  | some s => simp [step_eq_afterStep]

/-- Settles O44: a change of one entry of a list leaves the other entries, and changes of two entries commute. -/
theorem enginesShareNothing : Obligations.EnginesShareNothing := by
  refine ⟨fun sys n m hne => ?_, fun sys n s hs => ⟨afterStep s, step_eq_afterStep s, ?_⟩, fun n s hs => ?_⟩
  · simp only [stepAt_eq_modify]
    exact ⟨List.getElem?_modify_ne _ sys hne, List.modify_modify_ne _ _ sys hne.symm⟩
  · rw [stepAt_eq_modify, List.getElem?_modify_eq, hs]
    rfl
  · exact List.eq_of_mem_replicate (List.mem_of_getElem? hs)

/-! ### What raising an error writes -/

/-- Settles O9: the word is decoded before any state is read, and `IllegalCommand` writes no state. -/
theorem illegalWordsWriteNoState : Obligations.IllegalWordsWriteNoState := fun s w rest hs hw =>
  calc step s = performWord w (taken s rest) := step_word hs
    _ = raise .illegalCommand (taken s rest) := performWord_illegal hw _
    _ = _ := raise_illegalCommand _

/-- Settles O36: the three refused cells of the table for R72; `END` is accepted in both phases. -/
theorem sequenceErrorWritesNoState : Obligations.SequenceErrorWritesNoState := by
  refine ⟨fun s b hp => ⟨?_, ?_⟩, fun s b hp => ?_, fun s t hexec hresp => ?_⟩
  · exact exec_refused_next (keyb_refused b hp)
  · exact exec_refused_next (ksa_refused hp)
  · exact exec_refused_next (xorb_refused b hp)
  · obtain rfl := execState_eq hexec
    have hrefused := responses_execState_eq_sequenceError.1 hresp
    rw [accepts_end] at hrefused
    cases hrefused

/-- Settles O38, by the writes of each error. -/
theorem raisingAnErrorWritesOnlyThis : Obligations.RaisingAnErrorWritesOnlyThis := fun s =>
  ⟨⟨_, raise_invalidKey s, rfl, rfl, rfl, rfl, rfl, rfl, rfl, rfl⟩, raise_sequenceError s, raise_illegalCommand s⟩

end Sys2Proof.Machine
end

section
/-! Proofs of the statements of 70_reset_and_hazards.md: the reset event, and the states the reset relation allows. -/

namespace Sys2Proof.Machine

/-! ### The reset relation -/

/-- Settles O16: in a state of the reset relation nothing but the control state is live, and the relation fixes that. -/
theorem resetStatesAnswerAlike : Obligations.ResetStatesAnswerAlike := fun _ _ ⟨hs, hcs⟩ ⟨ht, hct⟩ =>
  responsesTo_eq_of_liveAlike (liveAlike_of_key_cleared hs ht) hcs hct

/-! ### The reset event -/

/-- A reset leaves a state of the reset relation (R101). -/
theorem resetRelation_resetEvent (s : State) : resetRelation (resetEvent s) :=
  ⟨resetEvent_PHASE s, resetEvent_KLEN s, resetEvent_KOVF s⟩

/-- `END` leaves a state of the reset relation (R70, R102). -/
theorem resetRelation_execState_end (s : State) : resetRelation (execState .endInvocation s) :=
  ⟨execState_end_PHASE s, endWrites_KLEN s, endWrites_KOVF s⟩

/-- Settles O15: the reset event and `END` both leave a state of the reset relation, hence the same control state; the
event writes neither the responses nor the pending events. -/
theorem resetEventMeetsTheRelation : Obligations.ResetEventMeetsTheRelation := by
  intro s rest hs
  obtain ⟨hp, hlen, hovf⟩ := resetRelation_resetEvent (taken s rest)
  obtain ⟨hp', hlen', hovf'⟩ := resetRelation_execState_end s
  exact ⟨_, execState .endInvocation s, step_reset hs, exec_eq _ s, hp, hlen, hovf, resetEvent_responses _,
    resetEvent_commands _, hp.trans hp'.symm, hlen.trans hlen'.symm, hovf.trans hovf'.symm⟩

end Sys2Proof.Machine
end

section
/-! Proofs of the last two statements: the words of 95_test_vectors.md section 2.5, and the dead memories of 10_state.md
section 4. -/

namespace Sys2Proof.Machine

/-! ### The words the spec lists -/

/-- Settles O5: each listed command word is the word of its command, and each listed illegal word is decoded. The list
is given to `decide` entry by entry, as `List.Forall`: as `∀ w ∈ l` it would be decided over all 65536 words. -/
theorem decodedWordsOfTheSpec : Obligations.DecodedWordsOfTheSpec := by
  refine ⟨?keyb00, ?keyb4B, ?keybFF, ?ksa, ?xorb00, ?xorb50, ?xorbFF, ?endInvocation, ?illegal⟩
  case illegal => exact List.forall_iff_forall_mem.1 (by decide)
  all_goals exact decode_eq_command.2 rfl

/-! ### Dead memories -/

/-- A `KSA` accepted leaves no key, whether it builds the schedule or raises `InvalidKey` (R57, R62, R91). -/
theorem execState_ksa_clears_key {s : State} (hp : s.PHASE = .phKey) :
    (execState .ksa s).KLEN = 0 ∧ (execState .ksa s).K = [] := by
  have hc := exec_cases .ksa s
  rw [exec_eq] at hc
  generalize execState .ksa s = t at hc ⊢
  cases hc with
  | refused hr => simp [hp, accepts] at hr
  | invalidKey _ _ => exact ⟨rfl, rfl⟩
  | build _ _ _ _ => exact ⟨rfl, rfl⟩

/-- Settles O34: `END` and reset leave both memories empty, a `KSA` in `PH_KEY` leaves `K` empty, and an empty memory has
no entry with a value (log 2). -/
theorem deadMemoriesHoldNoValue : Obligations.DeadMemoriesHoldNoValue := by
  refine ⟨fun s t hexec a => ?_, fun s t hexec hp => ?_, fun s t rest hs hstep a => ?_⟩
  · rw [exec_end] at hexec
    cases hexec
    exact ⟨Memory.read?_nil a, Memory.read?_nil a⟩
  · obtain rfl := execState_eq hexec
    obtain ⟨hlen, hK⟩ := execState_ksa_clears_key hp
    exact ⟨hlen, fun a => by rw [hK, Memory.read?_nil]⟩
  · rw [step_reset hs] at hstep
    cases hstep
    exact ⟨Memory.read?_nil a, Memory.read?_nil a⟩

end Sys2Proof.Machine
end
